-- ==== Sys2Proof/Word.lean ====
section
/-! DEFINITION. The machine's word types (10_state.md R10, R12, R13; 30_encoding.md R50). -/

namespace Sys2Proof

/-- An 8-bit unsigned value: a general register, a timer, a memory byte (R10, R15, R18). -/
abbrev Byte := BitVec 8

/-- A 16-bit value: an instruction word, `pc`, `I`, a return address (R50, R13, R12, R14). -/
abbrev Word := BitVec 16

/-- The 12-bit address field `nnn` (R51). -/
abbrev Addr12 := BitVec 12

end Sys2Proof
end

