-- ==== Sys2Proof/Syntax.lean ====
section
/-! DEFINITION. The instructions: one constructor per row of spec/opcode_table.json, in the table's order
(30_encoding.md R55). Operands are the fields of R51 the instruction reads; an ignored field (R53) is no operand. -/

namespace Sys2Proof

/-- A register index `x` or `y`, 0..15: any of V0..VF (R51, R54). -/
abbrev Reg := Fin 16

/-- An instruction of the opcode map (R55), named after its mnemonic. -/
inductive Instr where
  /-- `CLS` (R120) -/
  | cls
  /-- `RET` (R70) -/
  | ret
  /-- `JP nnn` (R71) -/
  | jp (nnn : Addr12)
  /-- `CALL nnn` (R72) -/
  | call (nnn : Addr12)
  /-- `SE Vx, kk` (R73) -/
  | seImm (x : Reg) (kk : Byte)
  /-- `SNE Vx, kk` (R74) -/
  | sneImm (x : Reg) (kk : Byte)
  /-- `SE Vx, Vy` (R75) -/
  | seReg (x y : Reg)
  /-- `LD Vx, kk` (R90) -/
  | ldImm (x : Reg) (kk : Byte)
  /-- `ADD Vx, kk` (R91) -/
  | addImm (x : Reg) (kk : Byte)
  /-- `LD Vx, Vy` (R92) -/
  | ldReg (x y : Reg)
  /-- `OR Vx, Vy` (R93) -/
  | orReg (x y : Reg)
  /-- `AND Vx, Vy` (R94) -/
  | andReg (x y : Reg)
  /-- `XOR Vx, Vy` (R95) -/
  | xorReg (x y : Reg)
  /-- `ADD Vx, Vy` (R96) -/
  | addReg (x y : Reg)
  /-- `SUB Vx, Vy` (R97) -/
  | sub (x y : Reg)
  /-- `SHR Vx` (R98) -/
  | shr (x : Reg)
  /-- `SUBN Vx, Vy` (R99) -/
  | subn (x y : Reg)
  /-- `SHL Vx` (R100) -/
  | shl (x : Reg)
  /-- `SNE Vx, Vy` (R76) -/
  | sneReg (x y : Reg)
  /-- `LD I, nnn` (R110) -/
  | ldI (nnn : Addr12)
  /-- `JP V0, nnn` (R77) -/
  | jpV0 (nnn : Addr12)
  /-- `RND Vx, kk` (R101) -/
  | rnd (x : Reg) (kk : Byte)
  /-- `DRW Vx, Vy, n` (R121); `n` is the number of sprite rows, 0..15 -/
  | drw (x y : Reg) (n : Fin 16)
  /-- `SKP Vx` (R130) -/
  | skp (x : Reg)
  /-- `SKNP Vx` (R131) -/
  | sknp (x : Reg)
  /-- `LD Vx, DT` (R132) -/
  | ldVxDT (x : Reg)
  /-- `LD Vx, K` (R133) -/
  | ldVxK (x : Reg)
  /-- `LD DT, Vx` (R134) -/
  | ldDTVx (x : Reg)
  /-- `LD ST, Vx` (R135) -/
  | ldSTVx (x : Reg)
  /-- `ADD I, Vx` (R111) -/
  | addI (x : Reg)
  /-- `LD B, Vx` (R112) -/
  | ldB (x : Reg)
  /-- `LD [I], Vx` (R113) -/
  | storeRegs (x : Reg)
  /-- `LD Vx, [I]` (R114) -/
  | loadRegs (x : Reg)
  /-- `UNDEF` (R140): an unrecognised word. It carries the word it was decoded from, which takes no part in its
  effect (log 16). -/
  | undef (w : Word)
  deriving DecidableEq, Repr

end Sys2Proof
end

