-- ==== Sys2Proof/WellFormed.lean ====
section
/-! DEFINITION. Which instruction terms stand for an encoding. Every operand's range is already a fact of its type
(R51); the one check left is that the word of `undef` really matches no row of the opcode map (R57). -/

namespace Sys2Proof

/-- The four sets of unrecognised words, one line each, as 30_encoding.md R57 lists them. -/
def unrecognised (w : Word) : Bool :=
  (w &&& 0xF000 == 0x0000 && !(w &&& 0x000F == 0x0000 || w &&& 0x000F == 0x000E))
  || (w &&& 0xF000 == 0x8000 &&
      [0x0008, 0x0009, 0x000A, 0x000B, 0x000C, 0x000D, 0x000F].contains (w &&& 0x000F))
  || (w &&& 0xF000 == 0xE000 && !([0x009E, 0x00A1].contains (w &&& 0x00FF)))
  || (w &&& 0xF000 == 0xF000 &&
      !([0x0007, 0x000A, 0x0015, 0x0018, 0x001E, 0x0033, 0x0055, 0x0065].contains (w &&& 0x00FF)))

/-- An instruction is well formed: `undef` only of an unrecognised word (R57). -/
def WellFormed : Instr → Bool
  | .cls => true
  | .ret => true
  | .jp _ => true
  | .call _ => true
  | .seImm _ _ => true
  | .sneImm _ _ => true
  | .seReg _ _ => true
  | .ldImm _ _ => true
  | .addImm _ _ => true
  | .ldReg _ _ => true
  | .orReg _ _ => true
  | .andReg _ _ => true
  | .xorReg _ _ => true
  | .addReg _ _ => true
  | .sub _ _ => true
  | .shr _ => true
  | .subn _ _ => true
  | .shl _ => true
  | .sneReg _ _ => true
  | .ldI _ => true
  | .jpV0 _ => true
  | .rnd _ _ => true
  | .drw _ _ _ => true
  | .skp _ => true
  | .sknp _ => true
  | .ldVxDT _ => true
  | .ldVxK _ => true
  | .ldDTVx _ => true
  | .ldSTVx _ => true
  | .addI _ => true
  | .ldB _ => true
  | .storeRegs _ => true
  | .loadRegs _ => true
  | .undef w => unrecognised w

end Sys2Proof
end

