-- ==== Sys2Proof/Decode.lean ====
section
/-! DEFINITION. The decoder, total on any bytes (30_encoding.md R50 to R58), the opcode map as a table (R55), and after
them the encoder. -/

namespace Sys2Proof

/-- `class = w[15:12]`, the first-level dispatch (R51, R53). -/
def opClass (w : Word) : Nat := (w.extractLsb' 12 4).toNat

/-- `nnn = w[11:0]` (R51). -/
def fieldNNN (w : Word) : Addr12 := w.extractLsb' 0 12

/-- `x = w[11:8]` (R51). -/
def fieldX (w : Word) : Reg := ⟨(w.extractLsb' 8 4).toNat, (w.extractLsb' 8 4).isLt⟩

/-- `y = w[7:4]` (R51). -/
def fieldY (w : Word) : Reg := ⟨(w.extractLsb' 4 4).toNat, (w.extractLsb' 4 4).isLt⟩

/-- `n = w[3:0]` (R51). -/
def fieldN (w : Word) : Fin 16 := ⟨(w.extractLsb' 0 4).toNat, (w.extractLsb' 0 4).isLt⟩

/-- `kk = w[7:0]` (R51). -/
def fieldKK (w : Word) : Byte := w.extractLsb' 0 8

/-- Class 0x0 selects on `n` alone; `w[11:4]` is ignored (R53). -/
def decodeClass0 (w : Word) : Instr :=
  match (fieldN w).val with
  | 0x0 => .cls
  | 0xE => .ret
  | _ => .undef w

/-- Class 0x8 selects on `n` (R53); `SHR` and `SHL` ignore `y`. -/
def decodeClass8 (w : Word) : Instr :=
  match (fieldN w).val with
  | 0x0 => .ldReg (fieldX w) (fieldY w)
  | 0x1 => .orReg (fieldX w) (fieldY w)
  | 0x2 => .andReg (fieldX w) (fieldY w)
  | 0x3 => .xorReg (fieldX w) (fieldY w)
  | 0x4 => .addReg (fieldX w) (fieldY w)
  | 0x5 => .sub (fieldX w) (fieldY w)
  | 0x6 => .shr (fieldX w)
  | 0x7 => .subn (fieldX w) (fieldY w)
  | 0xE => .shl (fieldX w)
  | _ => .undef w

/-- Class 0xE selects on the whole byte `kk` (R53). -/
def decodeClassE (w : Word) : Instr :=
  match (fieldKK w).toNat with
  | 0x9E => .skp (fieldX w)
  | 0xA1 => .sknp (fieldX w)
  | _ => .undef w

/-- Class 0xF selects on the whole byte `kk` (R53). -/
def decodeClassF (w : Word) : Instr :=
  match (fieldKK w).toNat with
  | 0x07 => .ldVxDT (fieldX w)
  | 0x0A => .ldVxK (fieldX w)
  | 0x15 => .ldDTVx (fieldX w)
  | 0x18 => .ldSTVx (fieldX w)
  | 0x1E => .addI (fieldX w)
  | 0x33 => .ldB (fieldX w)
  | 0x55 => .storeRegs (fieldX w)
  | 0x65 => .loadRegs (fieldX w)
  | _ => .undef w

/-- The instruction of a word of class `c`, by the two-level dispatch of R53. The last line is never reached from
`decodeWord`: a class has 16 values and each has its line (R57). -/
def decodeInClass (c : Nat) (w : Word) : Instr :=
  match c with
  | 0x0 => decodeClass0 w
  | 0x1 => .jp (fieldNNN w)
  | 0x2 => .call (fieldNNN w)
  | 0x3 => .seImm (fieldX w) (fieldKK w)
  | 0x4 => .sneImm (fieldX w) (fieldKK w)
  | 0x5 => .seReg (fieldX w) (fieldY w)
  | 0x6 => .ldImm (fieldX w) (fieldKK w)
  | 0x7 => .addImm (fieldX w) (fieldKK w)
  | 0x8 => decodeClass8 w
  | 0x9 => .sneReg (fieldX w) (fieldY w)
  | 0xA => .ldI (fieldNNN w)
  | 0xB => .jpV0 (fieldNNN w)
  | 0xC => .rnd (fieldX w) (fieldKK w)
  | 0xD => .drw (fieldX w) (fieldY w) (fieldN w)
  | 0xE => decodeClassE w
  | 0xF => decodeClassF w
  | _ => .undef w

/-- The decoder: a pure, total function of the word (R51, R58). -/
def decodeWord (w : Word) : Instr := decodeInClass (opClass w) w

/-- A byte pair as a word: the byte at the lower address is `w[15:8]` (20_memory.md R32, R33). -/
def joinBytes (hi lo : Byte) : Word := BitVec.ofNat 16 (hi.toNat * 0x100 + lo.toNat)

/-- `w[15:8]`, the byte stored at the lower address (R33). -/
def highByte (w : Word) : Byte := w.extractLsb' 8 8

/-- `w[7:0]`, the byte stored at the higher address (R33). -/
def lowByte (w : Word) : Byte := w.extractLsb' 0 8

/-- Why the decoder gives no instruction for some bytes. -/
inductive DecodeError where
  /-- Fewer than the two bytes an instruction takes (R50). No word is refused: decoding words is total (R58). -/
  | truncated
  deriving DecidableEq, Repr

/-- Decode the instruction at the head of a list of bytes, and the bytes after it (R50). -/
def decode : List Byte → Except DecodeError (Instr × List Byte)
  | hi :: lo :: rest => .ok (decodeWord (joinBytes hi lo), rest)
  | [_] => .error .truncated
  | [] => .error .truncated

/-- What the decoder reads from an instruction whose bits, numbered as spec/opcode_table.json numbers them, are `w`:
the word's bytes as the hardware stores them, given to `decode`. -/
def decodeTableWord (nbits w : Nat) : Option Instr :=
  let word : Word := BitVec.ofNat 16 (w % 2 ^ nbits)
  match decode [highByte word, lowByte word] with
  | .ok (i, _) => some i
  | .error _ => none

/-- A row of the opcode map (R55). -/
structure OpRow where
  /-- The bits that choose the row. -/
  mask : Word
  /-- Their values. -/
  pattern : Word
  /-- The instruction a word of the row stands for. -/
  build : Word → Instr

/-- The rows of R55, 1 to 33, in the spec's order, with the spec's mask and match. -/
def opRows : List OpRow :=
  [⟨0xF00F, 0x0000, fun _ => .cls⟩,
   ⟨0xF00F, 0x000E, fun _ => .ret⟩,
   ⟨0xF000, 0x1000, fun w => .jp (fieldNNN w)⟩,
   ⟨0xF000, 0x2000, fun w => .call (fieldNNN w)⟩,
   ⟨0xF000, 0x3000, fun w => .seImm (fieldX w) (fieldKK w)⟩,
   ⟨0xF000, 0x4000, fun w => .sneImm (fieldX w) (fieldKK w)⟩,
   ⟨0xF000, 0x5000, fun w => .seReg (fieldX w) (fieldY w)⟩,
   ⟨0xF000, 0x6000, fun w => .ldImm (fieldX w) (fieldKK w)⟩,
   ⟨0xF000, 0x7000, fun w => .addImm (fieldX w) (fieldKK w)⟩] ++
  [⟨0xF00F, 0x8000, fun w => .ldReg (fieldX w) (fieldY w)⟩,
   ⟨0xF00F, 0x8001, fun w => .orReg (fieldX w) (fieldY w)⟩,
   ⟨0xF00F, 0x8002, fun w => .andReg (fieldX w) (fieldY w)⟩,
   ⟨0xF00F, 0x8003, fun w => .xorReg (fieldX w) (fieldY w)⟩,
   ⟨0xF00F, 0x8004, fun w => .addReg (fieldX w) (fieldY w)⟩,
   ⟨0xF00F, 0x8005, fun w => .sub (fieldX w) (fieldY w)⟩,
   ⟨0xF00F, 0x8006, fun w => .shr (fieldX w)⟩,
   ⟨0xF00F, 0x8007, fun w => .subn (fieldX w) (fieldY w)⟩,
   ⟨0xF00F, 0x800E, fun w => .shl (fieldX w)⟩] ++
  [⟨0xF000, 0x9000, fun w => .sneReg (fieldX w) (fieldY w)⟩,
   ⟨0xF000, 0xA000, fun w => .ldI (fieldNNN w)⟩,
   ⟨0xF000, 0xB000, fun w => .jpV0 (fieldNNN w)⟩,
   ⟨0xF000, 0xC000, fun w => .rnd (fieldX w) (fieldKK w)⟩,
   ⟨0xF000, 0xD000, fun w => .drw (fieldX w) (fieldY w) (fieldN w)⟩] ++
  [⟨0xF0FF, 0xE09E, fun w => .skp (fieldX w)⟩,
   ⟨0xF0FF, 0xE0A1, fun w => .sknp (fieldX w)⟩,
   ⟨0xF0FF, 0xF007, fun w => .ldVxDT (fieldX w)⟩,
   ⟨0xF0FF, 0xF00A, fun w => .ldVxK (fieldX w)⟩,
   ⟨0xF0FF, 0xF015, fun w => .ldDTVx (fieldX w)⟩,
   ⟨0xF0FF, 0xF018, fun w => .ldSTVx (fieldX w)⟩,
   ⟨0xF0FF, 0xF01E, fun w => .addI (fieldX w)⟩,
   ⟨0xF0FF, 0xF033, fun w => .ldB (fieldX w)⟩,
   ⟨0xF0FF, 0xF055, fun w => .storeRegs (fieldX w)⟩,
   ⟨0xF0FF, 0xF065, fun w => .loadRegs (fieldX w)⟩]

/-- A word of class `c` with a 12-bit field: `{c, nnn}` (R52 format NNN, R51). -/
def wordNNN (c : Nat) (nnn : Addr12) : Word := BitVec.ofNat 16 (c * 0x1000 + nnn.toNat)

/-- A word of class `c` with a register and a byte: `{c, x, kk}` (R52 formats XKK and XS). -/
def wordXKK (c : Nat) (x : Reg) (kk : Byte) : Word := BitVec.ofNat 16 (c * 0x1000 + x.val * 0x100 + kk.toNat)

/-- A word of class `c` with two registers and a nibble: `{c, x, y, n}` (R52 formats XY and XYN). -/
def wordXYN (c : Nat) (x y n : Fin 16) : Word :=
  BitVec.ofNat 16 (c * 0x1000 + x.val * 0x100 + y.val * 0x10 + n.val)

/-- The word of an instruction. Ignored bits take the canonical values of R53: 0x00E0 and 0x00EE for `CLS` and `RET`,
`n = 0` for `SE` and `SNE Vx, Vy`, `y = 0` for `SHR` and `SHL`. -/
def encodeWord : Instr → Word
  | .cls => 0x00E0
  | .ret => 0x00EE
  | .jp nnn => wordNNN 0x1 nnn
  | .call nnn => wordNNN 0x2 nnn
  | .seImm x kk => wordXKK 0x3 x kk
  | .sneImm x kk => wordXKK 0x4 x kk
  | .seReg x y => wordXYN 0x5 x y 0
  | .ldImm x kk => wordXKK 0x6 x kk
  | .addImm x kk => wordXKK 0x7 x kk
  | .ldReg x y => wordXYN 0x8 x y 0x0
  | .orReg x y => wordXYN 0x8 x y 0x1
  | .andReg x y => wordXYN 0x8 x y 0x2
  | .xorReg x y => wordXYN 0x8 x y 0x3
  | .addReg x y => wordXYN 0x8 x y 0x4
  | .sub x y => wordXYN 0x8 x y 0x5
  | .shr x => wordXYN 0x8 x 0 0x6
  | .subn x y => wordXYN 0x8 x y 0x7
  | .shl x => wordXYN 0x8 x 0 0xE
  | .sneReg x y => wordXYN 0x9 x y 0
  | .ldI nnn => wordNNN 0xA nnn
  | .jpV0 nnn => wordNNN 0xB nnn
  | .rnd x kk => wordXKK 0xC x kk
  | .drw x y n => wordXYN 0xD x y n
  | .skp x => wordXKK 0xE x 0x9E
  | .sknp x => wordXKK 0xE x 0xA1
  | .ldVxDT x => wordXKK 0xF x 0x07
  | .ldVxK x => wordXKK 0xF x 0x0A
  | .ldDTVx x => wordXKK 0xF x 0x15
  | .ldSTVx x => wordXKK 0xF x 0x18
  | .addI x => wordXKK 0xF x 0x1E
  | .ldB x => wordXKK 0xF x 0x33
  | .storeRegs x => wordXKK 0xF x 0x55
  | .loadRegs x => wordXKK 0xF x 0x65
  | .undef w => w

/-- The two bytes of an instruction as memory holds them (R33). -/
def encode (i : Instr) : List Byte := [highByte (encodeWord i), lowByte (encodeWord i)]

end Sys2Proof
end

