-- ==== Sys2Proof/Config.lean ====
section
/-! DEFINITION. What is fixed for the machine (00_scope.md section 5) and the one free value. -/

namespace Sys2Proof

/-- `MEM_SIZE`: the valid addresses are 0..4095 (20_memory.md R30). -/
def Config.memSize : Nat := 0x1000

/-- The last valid address (R30). -/
def Config.lastAddr : Nat := 0xFFF

/-- `LOAD_BASE`: where the program image goes (70_reset_and_hazards.md R182). -/
def Config.loadBase : Nat := 0x200

/-- `ROM_MAX`: the longest program image, `4096 - 0x200` bytes (R182). -/
def Config.romMax : Nat := 3584

/-- `RESET_PC` (10_state.md R13). -/
def Config.resetPc : Word := 0x200

/-- What a byte of memory that the model's memory list does not name reads as.
DESIGN CHOICE, unsafe (log 1): the spec leaves `MEM_INIT` open (decision D2). Only `State.reset` rests on it:
a `Load` event gives every byte its launch content. -/
def Config.memFill : Byte := 0

/-- The random source: the `k`-th byte drawn from it. Outside the core, under no law (60_exceptions.md R165, D15):
a FREE VALUE (log 3), so it has no body and no proof can know a value of it. -/
opaque Config.randomByte : Nat → Byte

end Sys2Proof
end

