-- ==== Sys2Proof/Machine/State.lean ====
section
/-! DEFINITION. Everything the machine holds (10_state.md), as plain data, and its value after reset. -/

namespace Sys2Proof.Machine

/-- Memory as the bytes that differ from `Config.memFill`: address and byte, addresses strictly rising. -/
abbrev Memory := List Host.Cell

/-- The kinds of condition (60_exceptions.md R150). `NONE`, code 0, is the absence of a fault record. -/
inductive FaultKind where
  /-- Code 1: fatal, latched in `fault`. The only kind that is ever latched (R19). -/
  | outOfBounds
  /-- Code 2: never latched; an unrecognised word is a no-operation (R152). -/
  | unknownOpcode
  /-- Code 3: the host's, before the core starts; never seen by the core (R153). -/
  | loadError
  deriving DecidableEq, Repr

/-- The six causes of `OutOfBounds`, codes 1 to 6 (R151). -/
inductive FaultCause where
  | fetch
  | dataRead
  | dataWrite
  | stackOverflow
  | stackUnderflow
  | keyIndex
  deriving DecidableEq, Repr

/-- The record the fault latch holds (R19): kind, cause, the offending value `info`, and the address `at` of the
instruction that raised, here called `pc0` as the rules call it. -/
structure FaultRecord where
  kind : FaultKind
  cause : FaultCause
  info : Word
  pc0 : Word
  deriving DecidableEq, Repr

/-- How far the launch of a run has come (70_reset_and_hazards.md R182, R183). The model's own field (log 9): it says
when the host's Load is enabled. -/
inductive LaunchPhase where
  /-- After Reset: the one Load of the run has not come yet. -/
  | awaitingLoad
  /-- The program is loaded; no Step has been performed. -/
  | loaded
  /-- A Step has been performed: the host writes memory no more (20_memory.md R41). -/
  | running
  deriving DecidableEq, Repr

/-- The events the host issues (00_scope.md R2). -/
inductive HostEvent where
  /-- `Reset` (R180). -/
  | reset
  /-- `Load(image)` (R182), with the launch parameter `MEM_INIT`: the cells listed, every other byte `Config.memFill`
  (log 17). -/
  | load (memInit : List Host.Cell) (image : List Byte)
  /-- `Step(r)` with its random byte (R3). -/
  | step (r : Byte)
  /-- `Tick` (60_exceptions.md R160). -/
  | tick
  /-- `KeySet(k, b)` (R163). -/
  | keySet (k : Fin 16) (down : Bool)
  /-- `Observe` (R162, R164). -/
  | observe
  deriving DecidableEq, Repr

/-- The machine. The first block is the spec's state (10_state.md section 1), the second the model's own fields. -/
structure State where
  /-- The general registers V0..VF (R10); VF is `V[15]` (R11). -/
  V : Vector Byte 16
  /-- The index register (R12). -/
  I : Word
  /-- The program counter (R13): during execute, the address after the instruction. -/
  pc : Word
  /-- The call stack's slots (R14). -/
  stack : Vector Word 16
  /-- How many return addresses are held, 0..16 (R14; log 6). -/
  sp : Fin 17
  /-- The delay timer (R15). -/
  DT : Byte
  /-- The sound timer (R15). -/
  ST : Byte
  /-- The framebuffer `fb[row][col]`, true = on (R16). -/
  fb : Vector (Vector Bool 64) 32
  /-- The keypad levels, true = down (R17). -/
  key : Vector Bool 16
  /-- The 4096 bytes of memory (R18). -/
  mem : Memory
  /-- The fault latch (R19); `none` is NONE. -/
  fault : Option FaultRecord
  /-- MODEL: the random input `r` of the Step being performed (R2, R165; log 3). -/
  rand : Byte
  /-- MODEL: how many free random bytes have been drawn (log 3). -/
  draws : Nat
  /-- MODEL: the diagnostic output of the last Step (R166; log 4). -/
  diag : Bool
  /-- MODEL: how far the launch has come (R183; log 9). -/
  phase : LaunchPhase
  /-- MODEL: the events the host has queued, oldest first (R2, R5; log 2). -/
  inputs : List HostEvent
  deriving DecidableEq, Repr

/-- Why the machine stops. -/
inductive Fault where
  /-- Raised by `stepInstruction` and by the Tick event when `fault` is latched: the machine is halted and neither is
  enabled (60_exceptions.md R154). It carries the latched record. Safe: nothing runs on a halted machine. -/
  | halted (record : FaultRecord)
  deriving DecidableEq, Repr

/-- What has no meaning in the model. -/
inductive Refusal where
  /-- Raised by `exec` for an instruction that is not modelled. No arm raises it: every instruction has its meaning.
  Safe. -/
  | notModelled (mnemonic : String)
  /-- Raised by the Load event for an image longer than 3584 bytes: the host reports LoadError and never starts the core
  (R153, R182). Safe: no program runs. -/
  | loadError
  /-- Raised by the Load event when it is not the first of the run, or a Step has been performed: the host has no such
  move (R182, 20_memory.md R41). Safe: nothing is written. -/
  | loadNotEnabled
  deriving DecidableEq, Repr

/-- The machine right after the Reset event (70_reset_and_hazards.md R180), with memory listing nothing (log 1) and
nothing queued by the host (log 2). `I`, `DT`, `ST` are 0 by the spec's decision D1 (log 5). -/
def State.reset : State where
  V := Vector.replicate 16 0
  I := 0
  pc := Config.resetPc
  stack := Vector.replicate 16 0
  sp := 0
  DT := 0
  ST := 0
  fb := Vector.replicate 32 (Vector.replicate 64 false)
  key := Vector.replicate 16 false
  mem := []
  fault := none
  rand := 0
  draws := 0
  diag := false
  phase := .awaitingLoad
  inputs := []

end Sys2Proof.Machine
end

