-- ==== Sys2Proof/Machine/Ops.lean ====
section
/-! DEFINITION. The named operations over memory, registers, stack, framebuffer, keypad and timers; taking an exception,
and the Reset that is the only way out of one. -/

namespace Sys2Proof.Machine

/-- What every meaning and every step answers with. -/
abbrev Result := Host.Outcome State Fault Refusal

/-! Memory (20_memory.md). -/

/-- The byte memory holds at an address: the first entry for it, else `Config.memFill`. -/
def Memory.read : Memory → Nat → Byte
  | [], _ => Config.memFill
  | (k, b) :: m, a => if a = k then b else Memory.read m a

/-- Put an entry at its place by address; used on a list that has no entry for it. -/
def Memory.putCell : Memory → Nat → Byte → Memory
  | [], a, v => [(a, v)]
  | (k, b) :: m, a, v => if a < k then (a, v) :: (k, b) :: m else (k, b) :: Memory.putCell m a v

/-- Take out every entry for an address. -/
def Memory.dropCell (m : Memory) (a : Nat) : Memory := m.filter (fun c => c.1 != a)

/-- Write one byte, keeping the canonical form: a byte equal to `Config.memFill` is not listed. -/
def Memory.write (m : Memory) (a : Nat) (v : Byte) : Memory :=
  if v = Config.memFill then m.dropCell a else (m.dropCell a).putCell a v

/-- Write bytes at rising addresses. -/
def Memory.writeBytes (m : Memory) (a : Nat) : List Byte → Memory
  | [] => m
  | b :: bs => Memory.writeBytes (m.write a b) (a + 1) bs

/-- The memory that holds the listed cells (the first entry for an address counts) and `Config.memFill` elsewhere. -/
def Memory.ofCells (cells : List Host.Cell) : Memory :=
  cells.foldr (fun c m => if c.1 < Config.memSize then m.write c.1 c.2 else m) []

/-- The canonical form: addresses strictly rising and below 4096 (R30), no entry equal to `Config.memFill`. -/
def Memory.wf (m : Memory) : Bool :=
  decide (m.Pairwise (fun c d => c.1 < d.1)) && m.all (fun c => decide (c.1 < Config.memSize) && c.2 != Config.memFill)

namespace State

/-- `mem[a]` (R18). -/
def byteAt (s : State) (a : Nat) : Byte := s.mem.read a

/-- `mem[a] <- v` (R18). The instruction has checked its range (R42). -/
def setByte (s : State) (a : Nat) (v : Byte) : State := { s with mem := s.mem.write a v }

/-- `Fetch(a)` without its raise: the big-endian word at `a`, or none when `a > 0xFFE` (R32). -/
def fetch (s : State) (a : Word) : Option Word :=
  if 0xFFE < a.toNat then none else some (joinBytes (s.byteAt a.toNat) (s.byteAt (a.toNat + 1)))

/-! Registers (10_state.md). -/

/-- `V[r]` (R10). -/
def v (s : State) (r : Reg) : Byte := s.V.get r

/-- `V[r] <- b` (R10): no register is hard-wired. -/
def setV (s : State) (r : Reg) (b : Byte) : State := { s with V := s.V.set r.val b r.isLt }

/-- `I <- a` (R12). -/
def setI (s : State) (a : Word) : State := { s with I := a }

/-- `pc <- a` (R13). -/
def setPc (s : State) (a : Word) : State := { s with pc := a }

/-- `pc <- pc + 2`: what a skip adds to the fetch's advance (40_flow.md R73). -/
def skipNext (s : State) : State := s.setPc (s.pc + 2)

/-- `DT <- b` (R15). -/
def setDT (s : State) (b : Byte) : State := { s with DT := b }

/-- `ST <- b` (R15). -/
def setST (s : State) (b : Byte) : State := { s with ST := b }

/-! Call stack (R14): `sp` counts the live entries. -/

/-- `stack[k]`. -/
def slot (s : State) (k : Fin 16) : Word := s.stack.get k

/-- `stack[sp] <- a; sp <- sp + 1`, for a stack that is not full (R14, R72). -/
def push (s : State) (a : Word) (h : s.sp.val < 16) : State :=
  { s with stack := s.stack.set s.sp.val a h, sp := ⟨s.sp.val + 1, by omega⟩ }

/-- The slot under `sp`, `stack[sp - 1]`: the live entry on top of a stack that is not empty (R14). -/
def top (s : State) : Word := s.slot ⟨s.sp.val - 1, by omega⟩

/-- `sp <- sp - 1`; the slot keeps its value (R14, R70). -/
def pop (s : State) : State := { s with sp := ⟨s.sp.val - 1, by omega⟩ }

/-! Framebuffer and keypad (R16, R17). -/

/-- `fb[row][col]` (R16). -/
def pixel (s : State) (row : Fin 32) (col : Fin 64) : Bool := (s.fb.get row).get col

/-- `fb[row][col] <- b` (R16). -/
def setPixel (s : State) (row : Fin 32) (col : Fin 64) (b : Bool) : State :=
  { s with fb := s.fb.set row.val ((s.fb.get row).set col.val b col.isLt) row.isLt }

/-- Every pixel off (43_display.md R120). -/
def clearPixels (s : State) : State := { s with fb := Vector.replicate 32 (Vector.replicate 64 false) }

/-- `key[k]` (R17). -/
def keyDown (s : State) (k : Fin 16) : Bool := s.key.get k

/-- The lowest-numbered key that is down, if any (44_keypad_timers.md R133). -/
def lowestKey (s : State) : Option (Fin 16) := (List.finRange 16).find? s.keyDown

end State

/-! Taking an exception (60_exceptions.md R154), and Reset. -/

/-- The codes of the kinds (R150); NONE is 0. -/
def FaultKind.code : FaultKind → Nat
  | .outOfBounds => 1
  | .unknownOpcode => 2
  | .loadError => 3

/-- The codes of the causes (R151). -/
def FaultCause.code : FaultCause → Nat
  | .fetch => 1
  | .dataRead => 2
  | .dataWrite => 3
  | .stackOverflow => 4
  | .stackUnderflow => 5
  | .keyIndex => 6

namespace State

/-- `raise OutOfBounds(cause, info)` by the instruction at `pc0` (R154), on a state in which the Step has written nothing
but `pc`: `pc` is `pc0` again and the record is latched. -/
def takeException (s : State) (pc0 : Word) (cause : FaultCause) (info : Word) : State :=
  { s with pc := pc0, fault := some ⟨.outOfBounds, cause, info, pc0⟩ }

/-- `raise` from the execute part of a Step, where `pc = pc0 + 2` (00_scope.md R3; log 8). -/
def raise (s : State) (cause : FaultCause) (info : Word) : State := s.takeException (s.pc - 2) cause info

/-- The Reset event (R180): every element but memory takes its reset value. It is the only way out of a fault (R155).
Of the model's own fields the host's queue and the count of random bytes stay (log 18). -/
def resetEvent (s : State) : State := { State.reset with mem := s.mem, draws := s.draws, inputs := s.inputs }

/-! The host's other events, as state changes. -/

/-- One timer's countdown: down by 1 unless it is 0 (R160). -/
def countDown (b : Byte) : Byte := if b = 0 then 0 else b - 1

/-- The Tick event's effect (R160). -/
def tick (s : State) : State := { s with DT := countDown s.DT, ST := countDown s.ST }

/-- The KeySet event's effect (R163). -/
def setKey (s : State) (k : Fin 16) (down : Bool) : State := { s with key := s.key.set k.val down k.isLt }

/-- The Load event's effect (R182): `MEM_INIT` everywhere, then the image from 0x200. -/
def loadProgram (s : State) (memInit : List Host.Cell) (image : List Byte) : State :=
  { s with mem := (Memory.ofCells memInit).writeBytes Config.loadBase image, phase := .loaded }

/-- What the host sees by the Observe event (R162, R164). -/
structure Observation where
  fb : Vector (Vector Bool 64) 32
  DT : Byte
  ST : Byte
  /-- "sound should play": `ST != 0` (R162). -/
  sound : Bool
  deriving DecidableEq, Repr

/-- The Observe event's reading (R162, R164). -/
def observe (s : State) : Observation := ⟨s.fb, s.DT, s.ST, s.ST != 0⟩

/-! The frame of a Step (00_scope.md R3). -/

/-- A Step begins: `diag` is 0 unless this Step raises it (R166), and the run is under way (R183). -/
def beginStep (s : State) : State := { s with diag := false, phase := .running }

/-- The fetch advance: `pc <- pc0 + 2` before execute (R3). -/
def advance (s : State) : State := s.setPc (s.pc + 2)

/-- A Step the host queue does not name draws a free random byte (R165, D15; log 3). -/
def drawRandom (s : State) : State := { s with rand := Config.randomByte s.draws, draws := s.draws + 1 }

/-- The random byte a `Step(r)` of the host carries (R2, R165). -/
def supplyRandom (s : State) (r : Byte) : State := { s with rand := r }

/-- Take the oldest queued event off the queue. -/
def dropInput (s : State) : State := { s with inputs := s.inputs.tail }

end State

end Sys2Proof.Machine
end

