-- ==== Sys2Proof/Machine/Flags.lean ====
section
/-! DEFINITION. The flag computations (10_state.md R11; 41_alu.md R93 to R100, R102). The one flag is VF = V[15]. -/

namespace Sys2Proof.Machine

/-- The index of VF (R11). -/
def vf : Reg := 15

/-- A flag value: 1 or 0. -/
def flag (b : Bool) : Byte := if b then 1 else 0

/-- Carry out of bit 7: 1 when the sum exceeds 255 (R96). -/
def carryFlag (a b : Byte) : Byte := flag (decide (255 < a.toNat + b.toNat))

/-- Not borrow for `a - b`: 0 when `a < b`, else 1 (R97, R99). -/
def notBorrowFlag (a b : Byte) : Byte := flag (decide (b.toNat ≤ a.toNat))

/-- The bit a right shift drops: bit 0 (R98). -/
def lowBitFlag (a : Byte) : Byte := flag (a.getLsbD 0)

/-- The bit a left shift drops: bit 7 (R100). -/
def highBitFlag (a : Byte) : Byte := flag (a.getLsbD 7)

/-- `VF <- b` (R11). -/
def State.setVF (s : State) (b : Byte) : State := s.setV vf b

end Sys2Proof.Machine
end

