-- ==== Sys2Proof/Machine/Operands.lean ====
section
/-! DEFINITION. The operand forms (30_encoding.md R54): immediates zero-extended, the `[I]` operand with its range check
(20_memory.md R42), register blocks, decimal digits, sprite coordinates and bits, key numbers. Register operands are
`State.v` and `State.setV`. -/

namespace Sys2Proof.Machine

/-- `zext_16` of a 12-bit address (R54). -/
def zext16OfAddr (a : Addr12) : Word := a.setWidth 16

/-- `zext_16` of a byte (R54). -/
def zext16OfByte (b : Byte) : Word := b.setWidth 16

namespace State

/-- The address of the `k`-th byte of the `[I]` operand: the integer `I + k`, never reduced (R31, D27). -/
def ea (s : State) (k : Nat) : Nat := s.I.toNat + k

/-- Every byte `I .. I + len - 1` is inside memory; nothing to check when `len = 0` (R42). -/
def rangeOk (s : State) (len : Nat) : Bool := len == 0 || decide (s.I.toNat + len - 1 ≤ Config.lastAddr)

/-- `V[i]` stored at `I + i` for each listed register, in order (42_index_memory.md R113). -/
def storeBlock (s : State) : List Reg → State
  | [] => s
  | r :: rs => storeBlock (s.setByte (s.ea r.val) (s.v r)) rs

/-- `V[i]` loaded from `I + i` for each listed register, in order (R114). -/
def loadBlock (s : State) : List Reg → State
  | [] => s
  | r :: rs => loadBlock (s.setV r (s.byteAt (s.ea r.val))) rs

end State

/-- The registers `V[0..x]`, ascending (R113, R114). -/
def regsUpTo (x : Reg) : List Reg := (List.finRange 16).filter (fun r => decide (r ≤ x))

/-- The hundreds digit (R112). -/
def hundreds (b : Byte) : Byte := BitVec.ofNat 8 (b.toNat / 100)

/-- The tens digit (R112). -/
def tens (b : Byte) : Byte := BitVec.ofNat 8 (b.toNat / 10 % 10)

/-- The units digit (R112). -/
def units (b : Byte) : Byte := BitVec.ofNat 8 (b.toNat % 10)

/-- `(V[y] + i) mod 32` (43_display.md R121). -/
def spriteRow (base : Byte) (i : Nat) : Fin 32 := ⟨(base.toNat + i) % 32, Nat.mod_lt _ (by decide)⟩

/-- `(V[x] + j) mod 64` (R121). -/
def spriteCol (base : Byte) (j : Nat) : Fin 64 := ⟨(base.toNat + j) % 64, Nat.mod_lt _ (by decide)⟩

/-- `b[7 - j]`: column 0 of the sprite is bit 7 (R121). -/
def spriteBit (b : Byte) (j : Nat) : Bool := b.getLsbD (7 - j)

/-- A key number as a byte (44_keypad_timers.md R133). -/
def keyNumber (k : Fin 16) : Byte := BitVec.ofNat 8 k.val

end Sys2Proof.Machine
end

