-- ==== Sys2Proof/Machine/Alu.lean ====
section
/-! DEFINITION. Load, arithmetic, logic, shift and random instructions (41_alu.md). Each cell's statements run in the
order written, and each reads what the earlier ones left (00_scope.md R4): with VF as an operand that decides the result
(R103; log 12). -/

namespace Sys2Proof.Machine

/-- `LD Vx, kk` (R90). -/
def execLdImm (x : Reg) (kk : Byte) (s : State) : Result := .next (s.setV x kk)

/-- `ADD Vx, kk`: no flag (R91). -/
def execAddImm (x : Reg) (kk : Byte) (s : State) : Result := .next (s.setV x (s.v x + kk))

/-- `LD Vx, Vy` (R92). -/
def execLdReg (x y : Reg) (s : State) : Result := .next (s.setV x (s.v y))

/-- The result first, then `VF <- 0` (R93, R94, R95). -/
def logicOp (op : Byte → Byte → Byte) (x y : Reg) (s : State) : State := (s.setV x (op (s.v x) (s.v y))).setVF 0

/-- `OR Vx, Vy` (R93). -/
def execOrReg (x y : Reg) (s : State) : Result := .next (logicOp (· ||| ·) x y s)

/-- `AND Vx, Vy` (R94). -/
def execAndReg (x y : Reg) (s : State) : Result := .next (logicOp (· &&& ·) x y s)

/-- `XOR Vx, Vy` (R95). -/
def execXorReg (x y : Reg) (s : State) : Result := .next (logicOp (· ^^^ ·) x y s)

/-- `ADD Vx, Vy`: the sum is taken first, then VF is written, then V[x] (R96). -/
def execAddReg (x y : Reg) (s : State) : Result :=
  .next ((s.setVF (carryFlag (s.v x) (s.v y))).setV x (s.v x + s.v y))

/-- `SUB Vx, Vy`: VF first; the subtraction reads both registers after it (R97). -/
def execSub (x y : Reg) (s : State) : Result :=
  let s1 := s.setVF (notBorrowFlag (s.v x) (s.v y))
  .next (s1.setV x (s1.v x - s1.v y))

/-- `SHR Vx`: VF first; the shift reads V[x] after it (R98). -/
def execShr (x : Reg) (s : State) : Result :=
  let s1 := s.setVF (lowBitFlag (s.v x))
  .next (s1.setV x (s1.v x >>> 1))

/-- `SUBN Vx, Vy`: VF first; the subtraction reads both registers after it (R99). -/
def execSubn (x y : Reg) (s : State) : Result :=
  let s1 := s.setVF (notBorrowFlag (s.v y) (s.v x))
  .next (s1.setV x (s1.v y - s1.v x))

/-- `SHL Vx`: VF first; the shift reads V[x] after it (R100). -/
def execShl (x : Reg) (s : State) : Result :=
  let s1 := s.setVF (highBitFlag (s.v x))
  .next (s1.setV x (s1.v x <<< 1))

/-- `RND Vx, kk`: the Step's random byte, masked (R101). -/
def execRnd (x : Reg) (kk : Byte) (s : State) : Result := .next (s.setV x (s.rand &&& kk))

end Sys2Proof.Machine
end

