-- ==== Sys2Proof/Machine/Display.lean ====
section
/-! DEFINITION. Display instructions (43_display.md). -/

namespace Sys2Proof.Machine

/-- `CLS` (R120): VF is not touched. -/
def execCls (s : State) : Result := .next s.clearPixels

/-- One pixel of the draw (R121): `V[y]` and `V[x]` are read here, so a coordinate register that is VF is read as the draw
has left it; then the collision, then the exclusive-or. -/
def drawPixel (x y : Reg) (b : Byte) (i j : Nat) (s : State) : State :=
  let row := spriteRow (s.v y) i
  let col := spriteCol (s.v x) j
  let s1 := if spriteBit b j && s.pixel row col then s.setVF 1 else s
  s1.setPixel row col (s1.pixel row col ^^ spriteBit b j)

/-- Columns 0 to `k - 1` of one sprite row, ascending (R121). -/
def drawColumns (x y : Reg) (b : Byte) (i : Nat) : Nat → State → State
  | 0, s => s
  | k + 1, s => drawPixel x y b i k (drawColumns x y b i k s)

/-- Sprite rows 0 to `k - 1`, ascending, each byte read from `I + i` (R121). -/
def drawRows (x y : Reg) : Nat → State → State
  | 0, s => s
  | k + 1, s =>
    let t := drawRows x y k s
    drawColumns x y (t.byteAt (t.ea k)) k 8 t

/-- `DRW Vx, Vy, n` (R121): `VF <- 0`, then the rows. -/
def execDrw (x y : Reg) (n : Fin 16) (s : State) : Result :=
  if s.rangeOk n.val then .next (drawRows x y n.val (s.setVF 0)) else .next (s.raise .dataRead s.I)

end Sys2Proof.Machine
end

