-- ==== Sys2Proof/Machine/Flow.lean ====
section
/-! DEFINITION. Control transfer instructions (40_flow.md), written for the point after the fetch advance, where
`pc = pc0 + 2` (00_scope.md R3). -/

namespace Sys2Proof.Machine

/-- `RET` (R70): fatal when the stack is empty. -/
def execRet (s : State) : Result :=
  if s.sp.val = 0 then .next (s.raise .stackUnderflow 0)
  else .next (s.pop.setPc s.top)

/-- `JP nnn` (R71). -/
def execJp (nnn : Addr12) (s : State) : Result := .next (s.setPc (zext16OfAddr nnn))

/-- `CALL nnn` (R72): fatal when 16 return addresses are held. -/
def execCall (nnn : Addr12) (s : State) : Result :=
  if h : s.sp.val < 16 then .next ((s.push s.pc h).setPc (zext16OfAddr nnn))
  else .next (s.raise .stackOverflow 16)

/-- A skip: `pc <- pc + 2` when the condition holds (R73 to R76, R130, R131). -/
def skipIf (c : Bool) (s : State) : State := if c then s.skipNext else s

/-- `SE Vx, kk` (R73). -/
def execSeImm (x : Reg) (kk : Byte) (s : State) : Result := .next (skipIf (s.v x == kk) s)

/-- `SNE Vx, kk` (R74). -/
def execSneImm (x : Reg) (kk : Byte) (s : State) : Result := .next (skipIf (s.v x != kk) s)

/-- `SE Vx, Vy` (R75). -/
def execSeReg (x y : Reg) (s : State) : Result := .next (skipIf (s.v x == s.v y) s)

/-- `SNE Vx, Vy` (R76). -/
def execSneReg (x y : Reg) (s : State) : Result := .next (skipIf (s.v x != s.v y) s)

/-- `JP V0, nnn` (R77): the sum is at most 0x10FE and is not reduced. -/
def execJpV0 (nnn : Addr12) (s : State) : Result := .next (s.setPc (zext16OfAddr nnn + zext16OfByte (s.v 0)))

end Sys2Proof.Machine
end

