-- ==== Sys2Proof/Machine/IndexMem.lean ====
section
/-! DEFINITION. Index register and memory instructions (42_index_memory.md). Each checks its whole range before it reads
or writes anything (20_memory.md R42), and none but `LD I` and `ADD I` changes `I`. -/

namespace Sys2Proof.Machine

/-- `LD I, nnn` (R110). -/
def execLdI (nnn : Addr12) (s : State) : Result := .next (s.setI (zext16OfAddr nnn))

/-- `ADD I, Vx` (R111): mod 65536, no flag (log 14). -/
def execAddI (x : Reg) (s : State) : Result := .next (s.setI (s.I + zext16OfByte (s.v x)))

/-- The three digits of a byte at `I`, `I + 1`, `I + 2` (R112). -/
def storeDigits (b : Byte) (s : State) : State :=
  ((s.setByte (s.ea 0) (hundreds b)).setByte (s.ea 1) (tens b)).setByte (s.ea 2) (units b)

/-- `LD B, Vx` (R112). -/
def execLdB (x : Reg) (s : State) : Result :=
  if s.rangeOk 3 then .next (storeDigits (s.v x) s) else .next (s.raise .dataWrite s.I)

/-- `LD [I], Vx` (R113). -/
def execStoreRegs (x : Reg) (s : State) : Result :=
  if s.rangeOk (x.val + 1) then .next (s.storeBlock (regsUpTo x)) else .next (s.raise .dataWrite s.I)

/-- `LD Vx, [I]` (R114). -/
def execLoadRegs (x : Reg) (s : State) : Result :=
  if s.rangeOk (x.val + 1) then .next (s.loadBlock (regsUpTo x)) else .next (s.raise .dataRead s.I)

end Sys2Proof.Machine
end

