-- ==== Sys2Proof/Machine/KeyTimer.lean ====
section
/-! DEFINITION. Keypad and timer instructions (44_keypad_timers.md), written for the point after the fetch advance. -/

namespace Sys2Proof.Machine

/-- A skip on the level of the key numbered V[x]: fatal when V[x] is no key number (R130, R131). -/
def skipOnKey (x : Reg) (wanted : Bool) (s : State) : State :=
  if h : (s.v x).toNat < 16 then skipIf (s.keyDown ⟨(s.v x).toNat, h⟩ == wanted) s
  else s.raise .keyIndex (zext16OfByte (s.v x))

/-- `SKP Vx` (R130). -/
def execSkp (x : Reg) (s : State) : Result := .next (skipOnKey x true s)

/-- `SKNP Vx` (R131). -/
def execSknp (x : Reg) (s : State) : Result := .next (skipOnKey x false s)

/-- `LD Vx, DT` (R132). -/
def execLdVxDT (x : Reg) (s : State) : Result := .next (s.setV x s.DT)

/-- `LD Vx, K` (R133): with no key down `pc` goes back to this instruction. -/
def execLdVxK (x : Reg) (s : State) : Result :=
  match s.lowestKey with
  | none => .next (s.setPc (s.pc - 2))
  | some k => .next (s.setV x (keyNumber k))

/-- `LD DT, Vx` (R134). -/
def execLdDTVx (x : Reg) (s : State) : Result := .next (s.setDT (s.v x))

/-- `LD ST, Vx` (R135). -/
def execLdSTVx (x : Reg) (s : State) : Result := .next (s.setST (s.v x))

end Sys2Proof.Machine
end

