-- ==== Sys2Proof/Machine/Unrecognised.lean ====
section
/-! DEFINITION. Unrecognised instruction words (45_unrecognised.md). -/

namespace Sys2Proof.Machine

/-- `UNDEF` (R140): no state element is written; the diagnostic output is 1 in this Step. The word takes no part. -/
def execUndef (_w : Word) (s : State) : Result := .next { s with diag := true }

end Sys2Proof.Machine
end

