-- ==== Sys2Proof/Machine/Cycle.lean ====
section
/-! DEFINITION. One Step of the machine (00_scope.md R3) and every other event of the host (R2), as transitions. -/

namespace Sys2Proof.Machine

/-- `Step(r)` with `r = s.rand` (R3): enabled while nothing is latched (60_exceptions.md R154); fetch, which may raise
with `pc` where it was (20_memory.md R32), advance, decode, execute. -/
def stepInstruction (s : State) : Result :=
  match s.fault with
  | some f => .fault (.halted f)
  | none =>
    match s.fetch s.pc with
    | none => .next (s.beginStep.takeException s.pc .fetch s.pc)
    | some w => exec (decodeWord w) s.beginStep.advance

/-- The Tick event (R160): enabled while nothing is latched. -/
def tickEvent (s : State) : Result :=
  match s.fault with
  | some f => .fault (.halted f)
  | none => .next s.tick

/-- The Load event (70_reset_and_hazards.md R182): once per run, after Reset and before the first Step, with an image that
fits. -/
def loadEvent (memInit : List Host.Cell) (image : List Byte) (s : State) : Result :=
  if Config.romMax < image.length then .refused .loadError
  else if s.phase = .awaitingLoad then .next (s.loadProgram memInit image)
  else .refused .loadNotEnabled

/-- An event of the host (R2). Reset, KeySet and Observe are always enabled (R180, R163, R154; log 11). -/
def fire (e : HostEvent) (s : State) : Result :=
  match e with
  | .reset => .next s.resetEvent
  | .load memInit image => loadEvent memInit image s
  | .step r => stepInstruction (s.supplyRandom r)
  | .tick => tickEvent s
  | .keySet k down => .next (s.setKey k down)
  | .observe => .next s

/-- The next event: the oldest the host has queued, else a Step with a free random byte (R2, R5; log 2, log 3). -/
def nextEvent (s : State) : Result :=
  match s.inputs with
  | [] => stepInstruction s.drawRandom
  | e :: _ => fire e s.dropInput

/-- Where a word is placed for the next Step to run: at `pc`, or at the reset address where nothing can be fetched from
`pc`. -/
def placePc (s : State) : Word := if 0xFFE < s.pc.toNat then Config.resetPc else s.pc

/-- The state in which the next event is a Step that fetches the word: its two bytes at `placePc`, nothing queued before
the Step, nothing latched (log 10). -/
def placeWord (s : State) (w : Word) : State :=
  { s with
    mem := (s.mem.write (placePc s).toNat (highByte w)).write ((placePc s).toNat + 1) (lowByte w)
    pc := placePc s
    fault := none
    inputs := [] }

end Sys2Proof.Machine
end

