-- ==== Sys2Proof/Machine/Step.lean ====
section
/-! DEFINITION. The step of the machine. -/

namespace Sys2Proof.Machine

/-- One event: the oldest the host has queued, else a Step (00_scope.md R2, R5). -/
def step (s : State) : Host.Outcome State Fault Refusal := nextEvent s

/-- The state in which `step` fetches and runs the instruction whose bits are `w` (log 10). -/
def State.withFetchWord (s : State) (nbits w : Nat) : State := placeWord s (BitVec.ofNat 16 (w % 2 ^ nbits))

end Sys2Proof.Machine
end

