-- ==== Sys2Proof/Safety.lean ====
section
/-! DEFINITION. The terms claims are stated in: what a state's parts are and which of them a transition may change, what a
safe run is, and the invariants. -/

namespace Sys2Proof.Machine

/-- One part of the state: the spec's elements one register, slot, pixel, key or byte at a time (10_state.md section 1), then
the model's own fields. -/
inductive Part where
  | v (r : Reg)
  | I
  | pc
  | stack (k : Fin 16)
  | sp
  | DT
  | ST
  | pixel (row : Fin 32) (col : Fin 64)
  | key (k : Fin 16)
  | mem (a : Nat)
  | fault
  | rand
  | draws
  | diag
  | phase
  | inputs
  deriving DecidableEq, Repr

/-- The part is one the spec gives the machine, not a field of the model's own. -/
def Part.architectural : Part → Bool
  | .v _ | .I | .pc | .stack _ | .sp | .DT | .ST | .pixel _ _ | .key _ | .mem _ | .fault => true
  | .rand | .draws | .diag | .phase | .inputs => false

/-- Two states hold the same in a part; a byte of memory is compared as it reads. -/
def SameAt (p : Part) (s t : State) : Prop :=
  match p with
  | .v r => t.v r = s.v r
  | .I => t.I = s.I
  | .pc => t.pc = s.pc
  | .stack k => t.slot k = s.slot k
  | .sp => t.sp = s.sp
  | .DT => t.DT = s.DT
  | .ST => t.ST = s.ST
  | .pixel row col => t.pixel row col = s.pixel row col
  | .key k => t.keyDown k = s.keyDown k
  | .mem a => t.byteAt a = s.byteAt a
  | .fault => t.fault = s.fault
  | .rand => t.rand = s.rand
  | .draws => t.draws = s.draws
  | .diag => t.diag = s.diag
  | .phase => t.phase = s.phase
  | .inputs => t.inputs = s.inputs

/-- FRAME: from `s` to `t` no part changes but those `P` names. -/
def ChangesOnly (P : Part → Prop) (s t : State) : Prop := ∀ p, ¬ P p → SameAt p s t

/-- The instruction, begun in `s` (with `pc` already past it), completes with a state that `Q` describes. -/
def Completes (i : Instr) (s : State) (Q : State → Prop) : Prop := ∃ t, exec i s = .next t ∧ Q t

/-- The instruction, begun in `s`, raises `OutOfBounds(cause, info)`: the record is latched with the instruction's own
address, `pc` is back there, and nothing else changes (60_exceptions.md R154). -/
def Raises (i : Instr) (s : State) (cause : FaultCause) (info : Word) : Prop :=
  Completes i s fun t =>
    t.fault = some ⟨.outOfBounds, cause, info, s.pc - 2⟩ ∧ t.pc = s.pc - 2 ∧
    ChangesOnly (fun p => p = .pc ∨ p = .fault) s t

/-- Every word with the given bits under the mask is the given instruction (30_encoding.md R55). -/
def Decodes (mask pattern : Word) (build : Word → Instr) : Prop :=
  ∀ w, w &&& mask = pattern → decodeWord w = build w

/-- The next event is a Step: one the host has queued with its random byte, or one with a free random byte (log 2, log 3). -/
def NextIsStep (s : State) : Prop := s.inputs = [] ∨ ∃ r rest, s.inputs = .step r :: rest

/-- The machine is not halted (60_exceptions.md R154, U14: a claim of safety is that no run reaches a latched fault). -/
def Safe (s : State) : Prop := s.fault = none

/-- Every element Reset gives a value has it (70_reset_and_hazards.md R180); memory is not among them. -/
def AtReset (s : State) : Prop :=
  (∀ r, s.v r = 0) ∧ s.I = 0 ∧ s.pc = 0x0200 ∧ (∀ k, s.slot k = 0) ∧ s.sp = 0 ∧ s.DT = 0 ∧ s.ST = 0 ∧
  (∀ row col, s.pixel row col = false) ∧ (∀ k, s.keyDown k = false) ∧ s.fault = none

/-- Memory keeps its canonical form. -/
def MemCanonical (s : State) : Prop := s.mem.wf = true

/-- Where `pc` and the live return addresses can be (10_state.md R13): `pc` at most 0x10FE, every live entry in
0x002..0x1000 (40_flow.md R70). -/
def PcBounded (s : State) : Prop :=
  s.pc.toNat ≤ 0x10FE ∧ ∀ k : Fin 16, k.val < s.sp.val → 2 ≤ (s.slot k).toNat ∧ (s.slot k).toNat ≤ 0x1000

/-- What a latched record says of the state it stands in (60_exceptions.md R151, R154): only `OutOfBounds` is latched, with
the address of the instruction `pc` still points at, and the cause's own condition holds. -/
def LatchTruthful (s : State) : Prop :=
  ∀ f, s.fault = some f →
    f.kind = .outOfBounds ∧ f.pc0 = s.pc ∧
    match f.cause with
    | .fetch => f.info = s.pc ∧ 0xFFE < s.pc.toNat
    | .dataRead => f.info = s.I ∧ 0xFFF < s.I.toNat + 15
    | .dataWrite => f.info = s.I ∧ 0xFFF < s.I.toNat + 15
    | .stackOverflow => f.info = 16 ∧ s.sp.val = 16
    | .stackUnderflow => f.info = 0 ∧ s.sp.val = 0
    | .keyIndex => 15 < f.info.toNat ∧ ∃ r, f.info = zext16OfByte (s.v r)

/-- How many rows below the row of `base` a screen row is, round the screen. -/
def rowDist (base : Byte) (row : Fin 32) : Nat := (row.val + 32 - base.toNat % 32) % 32

/-- How many columns right of the column of `base` a screen column is, round the screen. -/
def colDist (base : Byte) (col : Fin 64) : Nat := (col.val + 64 - base.toNat % 64) % 64

/-- The sprite bit that the draw of `n` rows at column `s.v x` and row `s.v y` lands on a pixel, or false if none does
(43_display.md R121, `S(r, c)`). -/
def spriteAt (s : State) (x y : Reg) (n : Nat) (row : Fin 32) (col : Fin 64) : Bool :=
  decide (rowDist (s.v y) row < n) && decide (colDist (s.v x) col < 8) &&
    spriteBit (s.byteAt (s.I.toNat + rowDist (s.v y) row)) (colDist (s.v x) col)

/-- The address of the `j`-th of nested calls to the listed targets, the first begun at `s.pc`. -/
def callSite (s : State) (targets : List Addr12) : Nat → Word
  | 0 => s.pc
  | j + 1 => zext16OfAddr (targets.getD j 0)

/-- Instructions executed one after another, each after its own fetch advance (00_scope.md R3). The list stands for the fetches
and the latch is not looked at: where one instruction raises, the next still runs here. -/
def execAll : List Instr → State → Result
  | [], s => .next s
  | i :: is, s =>
    match exec i s.advance with
    | .next t => execAll is t
    | .fault f => .fault f
    | .refused r => .refused r

/-- Calls and returns of the list pair up, from `d` calls open to none, with never more than `room` open; any other
instruction may stand between them (40_flow.md R79). -/
def paired (room : Nat) : Nat → List Instr → Bool
  | d, [] => d == 0
  | d, .call _ :: is => decide (d < room) && paired room (d + 1) is
  | d, .ret :: is => decide (0 < d) && paired room (d - 1) is
  | d, _ :: is => paired room d is

/-- The instructions other than CALL and RET that can raise (60_exceptions.md R151). -/
def raisesOnData : Instr → Bool
  | .drw _ _ _ | .loadRegs _ | .ldB _ | .storeRegs _ | .skp _ | .sknp _ => true
  | .cls | .ret | .jp _ | .call _ | .seImm _ _ | .sneImm _ _ | .seReg _ _ | .ldImm _ _ | .addImm _ _ | .ldReg _ _
  | .orReg _ _ | .andReg _ _ | .xorReg _ _ | .addReg _ _ | .sub _ _ | .shr _ | .subn _ _ | .shl _ | .sneReg _ _ | .ldI _
  | .jpV0 _ | .rnd _ _ | .ldVxDT _ | .ldVxK _ | .ldDTVx _ | .ldSTVx _ | .addI _ | .undef _ => false

end Sys2Proof.Machine
end

