-- ==== Sys2Proof/Certificates/Slice0/Obligations.lean ====
section
/-! DEFINITION. The statements for the provers. Each says which rule of spec/ it formalises; "own" names a decision of the
spec (92_eei_decisions.md), and "log n" an entry of the model's assumption log, that a clause rests on. -/

open Sys2Proof Sys2Proof.Machine

/-! ## The step and the events -/

/-- 00_scope.md R3; the queue is log 2, the free random byte log 3, `diag` log 4, `phase` log 9. When the two bytes at
`pc` decode to an instruction, `step` is `exec` of it on the state with `pc` moved past it and `r` supplied: by the
host's `Step(r)`, or free where the host has queued nothing. -/
def Obligations.StepRunsDecodedInstruction : Prop :=
  ∀ (s : State) (i : Instr), s.fault = none → s.pc.toNat ≤ 0xFFE →
    decode [s.byteAt s.pc.toNat, s.byteAt (s.pc.toNat + 1)] = .ok (i, []) →
    (∀ r rest, s.inputs = .step r :: rest →
      step s = exec i { s with pc := s.pc + 2, rand := r, diag := false, phase := .running, inputs := rest }) ∧
    (s.inputs = [] →
      step s = exec i { s with pc := s.pc + 2, rand := Config.randomByte s.draws, draws := s.draws + 1, diag := false,
                               phase := .running })

/-- 00_scope.md R2, R5 (own: D16, D22; log 2). The host's events are performed one at a time, in the order it queued
them, and each leaves the queue as it is performed. -/
def Obligations.QueuedEventIsPerformed : Prop :=
  ∀ (s : State) (e : HostEvent) (rest : List HostEvent), s.inputs = e :: rest →
    step s = fire e { s with inputs := rest } ∧ ∀ t, step s = .next t → t.inputs = rest

/-- 20_memory.md R32 (own: D18; log 7). The fetched word's high byte is the byte at the lower address; an address above
0xFFE fetches nothing, and a Step there raises `OutOfBounds(FETCH, pc)` with nothing else changed but the model's own
fields. -/
def Obligations.FetchIsBigEndianOrFaults : Prop :=
  (∀ (s : State) (a : Word), a.toNat ≤ 0xFFE →
    ∃ w, s.fetch a = some w ∧ highByte w = s.byteAt a.toNat ∧ lowByte w = s.byteAt (a.toNat + 1)) ∧
  (∀ (s : State) (a : Word), 0xFFE < a.toNat → s.fetch a = none) ∧
  (∀ s : State, s.fault = none → NextIsStep s → 0xFFE < s.pc.toNat →
    ∃ t, step s = .next t ∧ t.fault = some ⟨.outOfBounds, .fetch, s.pc, s.pc⟩ ∧
      ChangesOnly (fun p => p = .fault ∨ p.architectural = false) s t)

/-- The model's interface for a word placed to be run next (log 10): from every state, `step` fetches and runs it. -/
def Obligations.PlacedWordRunsNext : Prop :=
  ∀ (s : State) (w : Word),
    ∃ u, step (s.withFetchWord 16 w.toNat) = exec (decodeWord w) u ∧
      u.pc = (s.withFetchWord 16 w.toNat).pc + 2 ∧
      ChangesOnly (fun p => p = .pc ∨ p.architectural = false) (s.withFetchWord 16 w.toNat) u ∧
      (s.fault = none → s.pc.toNat ≤ 0xFFE →
        ChangesOnly (fun p => p = .pc ∨ p = .mem s.pc.toNat ∨ p = .mem (s.pc.toNat + 1) ∨ p.architectural = false) s u)

/-- 70_reset_and_hazards.md R180 (own: D1 for `I`, `DT`, `ST`, D3 for `fault`; log 5). The reset state has every reset
value. -/
def Obligations.ResetStateValues : Prop := AtReset State.reset

/-- R180, R181 (own: D1, D2, D3; log 5). From every state, halted or not, the Reset event gives every element its reset
value and leaves every byte of memory. -/
def Obligations.ResetEventFromAnyState : Prop :=
  ∀ s : State, ∃ t, fire .reset s = .next t ∧ AtReset t ∧ ∀ a, t.byteAt a = s.byteAt a

/-- R182, R183, 20_memory.md R41 (own: D2, D24; log 9, log 17). Load gives every byte its launch content: `MEM_INIT`
overlaid by the image from 0x200; nothing else changes but the launch phase. It is refused for an image over 3584 bytes
and when it is not the first of the run or a Step has been performed. -/
def Obligations.LoadPlacesTheImage : Prop :=
  ∀ (s : State) (memInit : List Host.Cell) (image : List Byte),
    (image.length ≤ 3584 → s.phase = .awaitingLoad →
      ∃ t, fire (.load memInit image) s = .next t ∧ t.phase = .loaded ∧
        (∀ k (h : k < image.length), t.byteAt (0x200 + k) = image[k]) ∧
        (∀ a, a < 4096 → (a < 0x200 ∨ 0x200 + image.length ≤ a) → t.byteAt a = Memory.read memInit a) ∧
        ChangesOnly (fun p => p = .phase ∨ ∃ a, p = .mem a) s t) ∧
    (3584 < image.length → fire (.load memInit image) s = .refused .loadError) ∧
    (image.length ≤ 3584 → s.phase ≠ .awaitingLoad → fire (.load memInit image) s = .refused .loadNotEnabled)

/-- 60_exceptions.md R160, R154 (own: D3, D12; log 7 for what a Tick on a halted machine answers). Tick is enabled while
nothing is latched; it lowers each timer by 1 if it is non-zero, leaves it at 0 otherwise, and changes nothing else. On
a halted machine the model answers the fault `halted`. -/
def Obligations.TickCountsTimersDown : Prop :=
  ∀ s : State,
    (s.fault = none → ∃ t, fire .tick s = .next t ∧
      t.DT.toNat = s.DT.toNat - 1 ∧ t.ST.toNat = s.ST.toNat - 1 ∧ ChangesOnly (fun p => p = .DT ∨ p = .ST) s t) ∧
    (∀ f, s.fault = some f → fire .tick s = .fault (.halted f))

/-- R161. After `n` Ticks with no write between, a timer has gone down by `n`, and stops at 0. -/
def Obligations.TimersReachZeroAndStay : Prop :=
  ∀ (n : Nat) (s : State),
    (State.tick^[n] s).DT.toNat = s.DT.toNat - n ∧ (State.tick^[n] s).ST.toNat = s.ST.toNat - n

/-- R163, 10_state.md R17 (own: D6 for the levels that only KeySet and Reset write; log 11 for KeySet on a halted
machine). KeySet, from any state, writes the level of its key and nothing else; no other event but Reset writes a level. -/
def Obligations.KeySetWritesOneLevel : Prop :=
  (∀ (s : State) (k : Fin 16) (b : Bool),
    ∃ t, fire (.keySet k b) s = .next t ∧ t.keyDown k = b ∧ ChangesOnly (fun p => p = .key k) s t) ∧
  ∀ (s : State) (e : HostEvent) (t : State), e ≠ .reset → (∀ k b, e ≠ .keySet k b) → fire e s = .next t →
    ∀ j, t.keyDown j = s.keyDown j

/-- R162, R164, 00_scope.md R2 (own: D22 for the event, which changes nothing). Observe reads the framebuffer and both
timers, with `ST != 0` as "sound should play", and changes nothing. -/
def Obligations.ObserveReadsAndChangesNothing : Prop :=
  ∀ s : State, fire .observe s = .next s ∧
    (∀ row col, (s.observe.fb.get row).get col = s.pixel row col) ∧
    s.observe.DT = s.DT ∧ s.observe.ST = s.ST ∧ (s.observe.sound = true ↔ s.ST ≠ 0)

/-! ## Decoding and encoding -/

/-- 30_encoding.md R51: the six fields are the document's six formulas. -/
def Obligations.FieldsAreTheFormulas : Prop :=
  ∀ w : Word,
    opClass w * 0x1000 = (w &&& 0xF000).toNat ∧
    (fieldNNN w).toNat = (w &&& 0x0FFF).toNat ∧
    (fieldX w).val = ((w &&& 0x0F00) >>> 8).toNat ∧
    (fieldY w).val = ((w &&& 0x00F0) >>> 4).toNat ∧
    (fieldN w).val = (w &&& 0x000F).toNat ∧
    (fieldKK w).toNat = (w &&& 0x00FF).toNat

/-- R55 (own: D14 for the rows with ignored bits, log 13; log 16 for the word that `undef` carries). The 33 rows are
pairwise disjoint; a word that matches a row is that row's instruction; a word that matches none is unrecognised. -/
def Obligations.OpcodeMapIsTheDecoder : Prop :=
  opRows.length = 33 ∧
  opRows.Pairwise (fun a b => ∀ w : Word, ¬(w &&& a.mask = a.pattern ∧ w &&& b.mask = b.pattern)) ∧
  (∀ row ∈ opRows, Decodes row.mask row.pattern row.build) ∧
  (∀ w : Word, (∀ row ∈ opRows, w &&& row.mask ≠ row.pattern) → decodeWord w = .undef w)

/-- R57, R58 (own: D14; log 13, log 16). A word decodes to UNDEF exactly when it is in one of the four sets of R57;
every word decodes to a well-formed instruction. -/
def Obligations.UnrecognisedWordsAreTheFourSets : Prop :=
  ∀ w : Word, ((∃ v, decodeWord w = .undef v) ↔ unrecognised w = true) ∧ WellFormed (decodeWord w) = true

/-- R56, R53 (own: D14; log 13). Two words of a row that differ only in its ignored bits decode to one instruction:
`w[11:4]` of CLS and RET, `w[3:0]` of SE and SNE Vx,Vy, `w[7:4]` of SHR and SHL. -/
def Obligations.IgnoredBitsDoNotMatter : Prop :=
  ∀ w v : Word, (w ^^^ v) &&& 0xF000 = 0 →
    ((w &&& 0xF000 = 0x0000 → w &&& 0x000F ∈ [0x0#16, 0xE#16] → (w ^^^ v) &&& 0x000F = 0 →
      decodeWord w = decodeWord v) ∧
    (w &&& 0xF000 ∈ [0x5000#16, 0x9000#16] → (w ^^^ v) &&& 0x0FF0 = 0 → decodeWord w = decodeWord v) ∧
    (w &&& 0xF00F ∈ [0x8006#16, 0x800E#16] → (w ^^^ v) &&& 0x0F0F = 0 → decodeWord w = decodeWord v))

/-- R50, R52, R53, R55, R59; the canonical words are log 13 and log 16. Decoding the bytes of a well-formed instruction,
with any bytes after them, gives the instruction back with every operand, and the bytes after it. -/
def Obligations.DecodeOfEncode : Prop :=
  ∀ (i : Instr) (rest : List Byte), WellFormed i = true → decode (encode i ++ rest) = .ok (i, rest)

/-- R55. Words written out from the patterns, one for each family. -/
def Obligations.SampleWordsDecode : Prop :=
  decode [0x2A, 0xBC] = .ok (.call 0xABC, []) ∧ decode [0x31, 0x42] = .ok (.seImm 1 0x42, []) ∧
  decode [0x81, 0x25] = .ok (.sub 1 2, []) ∧ decode [0xF2, 0x55] = .ok (.storeRegs 2, []) ∧
  decode [0xD1, 0x2F] = .ok (.drw 1 2 15, []) ∧ decode [0xE1, 0xA1] = .ok (.sknp 1, []) ∧
  decode [0x81, 0x28] = .ok (.undef 0x8128, [])

/-! ## Control transfer -/

/-- 40_flow.md R71. -/
def Obligations.JumpSetsPc : Prop :=
  Decodes 0xF000 0x1000 (fun w => .jp (fieldNNN w)) ∧
  ∀ nnn s, Completes (.jp nnn) s fun t => t.pc.toNat = nnn.toNat ∧ ChangesOnly (fun p => p = .pc) s t

/-- R77. The sum is exact: it is not reduced modulo 4096, and the register is V0. -/
def Obligations.JumpOffsetAddsV0 : Prop :=
  Decodes 0xF000 0xB000 (fun w => .jpV0 (fieldNNN w)) ∧
  ∀ nnn s, Completes (.jpV0 nnn) s fun t =>
    t.pc.toNat = nnn.toNat + (s.v 0).toNat ∧ ChangesOnly (fun p => p = .pc) s t

/-- R72 (own: D4, D5, D10; log 7). CALL stores `pc`, which is past the instruction, in `stack[sp]`, counts it, and
jumps; with 16 return addresses held it raises. -/
def Obligations.CallPushesReturnAddress : Prop :=
  Decodes 0xF000 0x2000 (fun w => .call (fieldNNN w)) ∧
  ∀ nnn s,
    (∀ k : Fin 16, k.val = s.sp.val → Completes (.call nnn) s fun t =>
      t.slot k = s.pc ∧ t.sp.val = s.sp.val + 1 ∧ t.pc.toNat = nnn.toNat ∧
      ChangesOnly (fun p => p = .pc ∨ p = .sp ∨ p = .stack k) s t) ∧
    (s.sp.val = 16 → Raises (.call nnn) s .stackOverflow 16)

/-- R70 (own: D4, D5, D10, D14, D28; log 7, log 13). RET takes the top entry off the stack and goes there, every slot
keeping its value; with none held it raises. -/
def Obligations.ReturnPopsTopEntry : Prop :=
  Decodes 0xF00F 0x000E (fun _ => .ret) ∧
  ∀ s,
    (∀ k : Fin 16, k.val + 1 = s.sp.val → Completes .ret s fun t =>
      t.pc = s.slot k ∧ t.sp.val = k.val ∧ ChangesOnly (fun p => p = .pc ∨ p = .sp) s t) ∧
    (s.sp.val = 0 → Raises .ret s .stackUnderflow 0)

/-- R79 (a rule the spec derives; own: D4, D5). From `sp = s` with room for them, nested calls and then `m` returns come
back to the address after call number `N - m`, the last call first and the first call last, with `sp` back accordingly
and nothing raised. With other instructions between, and with calls and returns that pair up in any order, the return
that pairs with a call comes back to the address after it with `sp` as before it; nothing is raised unless one of the
others does. -/
def Obligations.CallReturnBalance : Prop :=
  (∀ (targets : List Addr12) (m : Nat) (s : State), s.sp.val + targets.length ≤ 16 → 1 ≤ m → m ≤ targets.length →
    ∃ t, execAll (targets.map Instr.call ++ List.replicate m Instr.ret) s = .next t ∧
      t.pc = callSite s targets (targets.length - m) + 2 ∧ t.sp.val = s.sp.val + (targets.length - m) ∧
      ChangesOnly (fun p => p = .pc ∨ p = .sp ∨ ∃ k : Fin 16, s.sp.val ≤ k.val ∧ p = .stack k) s t) ∧
  (∀ (nnn : Addr12) (between : List Instr) (s : State), s.sp.val < 16 → paired (15 - s.sp.val) 0 between = true →
    ∃ t, execAll (.call nnn :: between ++ [.ret]) s = .next t ∧
      t.pc = s.pc + 2 ∧ t.sp = s.sp ∧ (∀ k : Fin 16, k.val < s.sp.val → t.slot k = s.slot k) ∧
      ((∀ i ∈ between, raisesOnData i = false) → t.fault = s.fault))

/-- R73, R74. -/
def Obligations.SkipOnImmediate : Prop :=
  Decodes 0xF000 0x3000 (fun w => .seImm (fieldX w) (fieldKK w)) ∧
  Decodes 0xF000 0x4000 (fun w => .sneImm (fieldX w) (fieldKK w)) ∧
  ∀ x kk s,
    (Completes (.seImm x kk) s fun t =>
      t.pc = (if s.v x = kk then s.pc + 2 else s.pc) ∧ ChangesOnly (fun p => p = .pc) s t) ∧
    (Completes (.sneImm x kk) s fun t =>
      t.pc = (if s.v x = kk then s.pc else s.pc + 2) ∧ ChangesOnly (fun p => p = .pc) s t)

/-- R75, R76 (own: D14 for the ignored `n`; log 13). -/
def Obligations.SkipOnRegister : Prop :=
  Decodes 0xF000 0x5000 (fun w => .seReg (fieldX w) (fieldY w)) ∧
  Decodes 0xF000 0x9000 (fun w => .sneReg (fieldX w) (fieldY w)) ∧
  ∀ x y s,
    (Completes (.seReg x y) s fun t =>
      t.pc = (if s.v x = s.v y then s.pc + 2 else s.pc) ∧ ChangesOnly (fun p => p = .pc) s t) ∧
    (Completes (.sneReg x y) s fun t =>
      t.pc = (if s.v x = s.v y then s.pc else s.pc + 2) ∧ ChangesOnly (fun p => p = .pc) s t)

/-! ## Load, arithmetic, logic, shift, random -/

/-- 41_alu.md R90. -/
def Obligations.LoadImmediate : Prop :=
  Decodes 0xF000 0x6000 (fun w => .ldImm (fieldX w) (fieldKK w)) ∧
  ∀ x kk s, Completes (.ldImm x kk) s fun t => t.v x = kk ∧ ChangesOnly (fun p => p = .v x) s t

/-- R91, with the document's property of a load and an add of one value. No register but `V[x]` changes, so VF is no
flag here. -/
def Obligations.AddImmediateWraps : Prop :=
  Decodes 0xF000 0x7000 (fun w => .addImm (fieldX w) (fieldKK w)) ∧
  ∀ x kk s,
    (Completes (.addImm x kk) s fun t =>
      (t.v x).toNat = ((s.v x).toNat + kk.toNat) % 256 ∧ ChangesOnly (fun p => p = .v x) s t) ∧
    (Completes (.ldImm x kk) s fun t => Completes (.addImm x kk) t fun u => (u.v x).toNat = 2 * kk.toNat % 256)

/-- R92. -/
def Obligations.CopyRegister : Prop :=
  Decodes 0xF00F 0x8000 (fun w => .ldReg (fieldX w) (fieldY w)) ∧
  ∀ x y s, Completes (.ldReg x y) s fun t => t.v x = s.v y ∧ ChangesOnly (fun p => p = .v x) s t

/-- R93, R94, R95, R103 (own: D20 where VF is an operand; log 12). The result goes to `V[x]` and then VF is cleared, so
with `x = 0xF` it is lost. -/
def Obligations.LogicClearsVF : Prop :=
  Decodes 0xF00F 0x8001 (fun w => .orReg (fieldX w) (fieldY w)) ∧
  Decodes 0xF00F 0x8002 (fun w => .andReg (fieldX w) (fieldY w)) ∧
  Decodes 0xF00F 0x8003 (fun w => .xorReg (fieldX w) (fieldY w)) ∧
  ∀ x y s,
    (Completes (.orReg x y) s fun t =>
      (x ≠ 15 → t.v x = s.v x ||| s.v y) ∧ t.v 15 = 0 ∧ ChangesOnly (fun p => p = .v x ∨ p = .v 15) s t) ∧
    (Completes (.andReg x y) s fun t =>
      (x ≠ 15 → t.v x = s.v x &&& s.v y) ∧ t.v 15 = 0 ∧ ChangesOnly (fun p => p = .v x ∨ p = .v 15) s t) ∧
    (Completes (.xorReg x y) s fun t =>
      (x ≠ 15 → t.v x = s.v x ^^^ s.v y) ∧ t.v 15 = 0 ∧ ChangesOnly (fun p => p = .v x ∨ p = .v 15) s t)

/-- R96, R103 (own: D20 where VF is an operand; log 12). Both operands are read first; VF gets the carry; `V[x]` gets
the sum last, so with `x = 0xF` the sum stays in VF. -/
def Obligations.AddSetsCarry : Prop :=
  Decodes 0xF00F 0x8004 (fun w => .addReg (fieldX w) (fieldY w)) ∧
  ∀ x y s, Completes (.addReg x y) s fun t =>
    (t.v x).toNat = ((s.v x).toNat + (s.v y).toNat) % 256 ∧
    (x ≠ 15 → t.v 15 = if 255 < (s.v x).toNat + (s.v y).toNat then 1 else 0) ∧
    ChangesOnly (fun p => p = .v x ∨ p = .v 15) s t

/-- R97, R99, R103 (own: D20 where VF is an operand; log 12). VF gets 0 on a borrow and else 1, and then the subtraction
reads its operands again: an operand that is VF is the new flag. -/
def Obligations.SubtractSetsNotBorrow : Prop :=
  Decodes 0xF00F 0x8005 (fun w => .sub (fieldX w) (fieldY w)) ∧
  Decodes 0xF00F 0x8007 (fun w => .subn (fieldX w) (fieldY w)) ∧
  ∀ x y s,
    (∀ f : Byte, f = (if (s.v x).toNat < (s.v y).toNat then 0 else 1) → Completes (.sub x y) s fun t =>
      t.v x = (if x = 15 then f else s.v x) - (if y = 15 then f else s.v y) ∧ (x ≠ 15 → t.v 15 = f) ∧
      ChangesOnly (fun p => p = .v x ∨ p = .v 15) s t) ∧
    (∀ f : Byte, f = (if (s.v y).toNat < (s.v x).toNat then 0 else 1) → Completes (.subn x y) s fun t =>
      t.v x = (if y = 15 then f else s.v y) - (if x = 15 then f else s.v x) ∧ (x ≠ 15 → t.v 15 = f) ∧
      ChangesOnly (fun p => p = .v x ∨ p = .v 15) s t)

/-- R98, R100, R102, R103 (own: D14 for the ignored `y`, D20 where `x` is VF; log 12, log 13). VF gets the bit shifted
out and then `V[x]` is read again and shifted by one. -/
def Obligations.ShiftSetsDroppedBit : Prop :=
  Decodes 0xF00F 0x8006 (fun w => .shr (fieldX w)) ∧ Decodes 0xF00F 0x800E (fun w => .shl (fieldX w)) ∧
  ∀ x s,
    (Completes (.shr x) s fun t =>
      (x ≠ 15 → (t.v x).toNat = (s.v x).toNat / 2 ∧ (t.v 15).toNat = (s.v x).toNat % 2) ∧ (x = 15 → t.v 15 = 0) ∧
      ChangesOnly (fun p => p = .v x ∨ p = .v 15) s t) ∧
    (Completes (.shl x) s fun t =>
      (x ≠ 15 → (t.v x).toNat = 2 * (s.v x).toNat % 256 ∧ (t.v 15).toNat = (s.v x).toNat / 128) ∧
      (x = 15 → t.v 15 = if 128 ≤ (s.v 15).toNat then 2 else 0) ∧
      ChangesOnly (fun p => p = .v x ∨ p = .v 15) s t)

/-- R101 (own: D15; log 3). `V[x]` gets the Step's random byte under the mask, for every value of that byte. -/
def Obligations.RandomIsMasked : Prop :=
  Decodes 0xF000 0xC000 (fun w => .rnd (fieldX w) (fieldKK w)) ∧
  ∀ x kk (s : State), Completes (.rnd x kk) s fun t => t.v x = s.rand &&& kk ∧ ChangesOnly (fun p => p = .v x) s t

/-- 10_state.md R20, 60_exceptions.md R165 (log 3). The random byte carries nothing from one event to the next: what an
earlier Step left in `rand` has no part in a Step. -/
def Obligations.OldRandomByteIsNotUsed : Prop :=
  ∀ (s : State) (a : Byte),
    (s.inputs = [] → step { s with rand := a } = step s) ∧
    (∀ r rest, s.inputs = .step r :: rest → step { s with rand := a } = step s)

/-! ## Index register and memory -/

/-- 42_index_memory.md R110. -/
def Obligations.SetIndex : Prop :=
  Decodes 0xF000 0xA000 (fun w => .ldI (fieldNNN w)) ∧
  ∀ nnn s, Completes (.ldI nnn) s fun t => t.I.toNat = nnn.toNat ∧ ChangesOnly (fun p => p = .I) s t

/-- R111 (own: D17 for the wrap; log 14). VF is not touched. -/
def Obligations.AddToIndexWraps : Prop :=
  Decodes 0xF0FF 0xF01E (fun w => .addI (fieldX w)) ∧
  ∀ x s, Completes (.addI x) s fun t =>
    t.I.toNat = (s.I.toNat + (s.v x).toNat) % 65536 ∧ ChangesOnly (fun p => p = .I) s t

/-- R112, 20_memory.md R42 (own: D10, D17, D27; log 7, log 14). The digits go to the three bytes at `I`; where one lies
outside memory nothing is written and the instruction raises. -/
def Obligations.StoreDecimalDigits : Prop :=
  Decodes 0xF0FF 0xF033 (fun w => .ldB (fieldX w)) ∧
  ∀ x s,
    (s.I.toNat + 2 ≤ 0xFFF → Completes (.ldB x) s fun t =>
      (t.byteAt (s.ea 0)).toNat = (s.v x).toNat / 100 ∧ (t.byteAt (s.ea 1)).toNat = (s.v x).toNat / 10 % 10 ∧
      (t.byteAt (s.ea 2)).toNat = (s.v x).toNat % 10 ∧
      ChangesOnly (fun p => p = .mem (s.ea 0) ∨ p = .mem (s.ea 1) ∨ p = .mem (s.ea 2)) s t) ∧
    (0xFFF < s.I.toNat + 2 → Raises (.ldB x) s .dataWrite s.I)

/-- R113, R42 (own: D10, D17, D27; log 7, log 14). -/
def Obligations.StoreRegisterBlock : Prop :=
  Decodes 0xF0FF 0xF055 (fun w => .storeRegs (fieldX w)) ∧
  ∀ x s,
    (s.I.toNat + x.val ≤ 0xFFF → Completes (.storeRegs x) s fun t =>
      (∀ r, r ≤ x → t.byteAt (s.ea r.val) = s.v r) ∧
      ChangesOnly (fun p => ∃ r, r ≤ x ∧ p = .mem (s.ea r.val)) s t) ∧
    (0xFFF < s.I.toNat + x.val → Raises (.storeRegs x) s .dataWrite s.I)

/-- R114, R42 (own: D10, D17, D27; log 7, log 14). -/
def Obligations.LoadRegisterBlock : Prop :=
  Decodes 0xF0FF 0xF065 (fun w => .loadRegs (fieldX w)) ∧
  ∀ x s,
    (s.I.toNat + x.val ≤ 0xFFF → Completes (.loadRegs x) s fun t =>
      (∀ r, r ≤ x → t.v r = s.byteAt (s.ea r.val)) ∧ ChangesOnly (fun p => ∃ r, r ≤ x ∧ p = .v r) s t) ∧
    (0xFFF < s.I.toNat + x.val → Raises (.loadRegs x) s .dataRead s.I)

/-- 20_memory.md R33, R40 (own: D9; log 7). What `LD [I], Vx` has stored is what a fetch from there gives, V0 as the
high byte. -/
def Obligations.StoreIsSeenByFetch : Prop :=
  ∀ x s, 1 ≤ x.val → s.I.toNat + x.val ≤ 0xFFF →
    Completes (.storeRegs x) s fun t => t.fetch s.I = some (joinBytes (s.v 0) (s.v 1))

/-- 20_memory.md R31, R38. A read gives the byte last written at its address, and a write leaves every other address. -/
def Obligations.ReadGivesLastWrite : Prop :=
  ∀ (s : State) (a b : Nat) (d : Byte), (s.setByte a d).byteAt b = if b = a then d else s.byteAt b

/-! ## Display -/

/-- 43_display.md R120 (own: D14 for the ignored bits; log 13). -/
def Obligations.ClearScreen : Prop :=
  Decodes 0xF00F 0x0000 (fun _ => .cls) ∧
  ∀ s, Completes .cls s fun t =>
    (∀ row col, t.pixel row col = false) ∧ ChangesOnly (fun p => ∃ row col, p = .pixel row col) s t

/-- R121, every form (own: D20, D21 for VF as a coordinate register and for `n = 0`; log 12). There is a sequence of
flags and framebuffers, from VF cleared and the framebuffer as it was, one for each sprite pixel in turn: row by row,
bit 7 first; the coordinates are taken from the registers as the draw has left them, wrapped mod 32 and mod 64; a sprite
bit on a lit pixel sets the flag; the bit is exclusive-ored in. The draw ends with the last of them. -/
def Obligations.DrawPixelByPixel : Prop :=
  Decodes 0xF000 0xD000 (fun w => .drw (fieldX w) (fieldY w) (fieldN w)) ∧
  ∀ (x y : Reg) (n : Fin 16) (s : State), n.val = 0 ∨ s.I.toNat + n.val - 1 ≤ 0xFFF →
    ∃ (hit : Nat → Bool) (fb : Nat → Fin 32 → Fin 64 → Bool),
      hit 0 = false ∧ (∀ r c, fb 0 r c = s.pixel r c) ∧
      (∀ k < 8 * n.val, ∀ (row : Fin 32) (col : Fin 64) (bit : Bool),
        row.val = ((if y = 15 then (if hit k then 1 else 0) else (s.v y).toNat) + k / 8) % 32 →
        col.val = ((if x = 15 then (if hit k then 1 else 0) else (s.v x).toNat) + k % 8) % 64 →
        bit = (s.byteAt (s.ea (k / 8))).getLsbD (7 - k % 8) →
        hit (k + 1) = (hit k || (bit && fb k row col)) ∧
        ∀ r c, fb (k + 1) r c = if r = row ∧ c = col then fb k r c ^^ bit else fb k r c) ∧
      Completes (.drw x y n) s fun t =>
        t.v 15 = (if hit (8 * n.val) then 1 else 0) ∧ (∀ r c, t.pixel r c = fb (8 * n.val) r c) ∧
        ChangesOnly (fun p => p = .v 15 ∨ ∃ r c, p = .pixel r c) s t

/-- R121, the closed form for `x != 0xF` and `y != 0xF` (own: D21 for `n = 0`): every pixel is exclusive-ored with the
sprite bit that lands on it, and VF is 1 exactly when a sprite bit landed on a lit pixel, else 0. -/
def Obligations.DrawClosedForm : Prop :=
  ∀ (x y : Reg) (n : Fin 16) (s : State), x ≠ 15 → y ≠ 15 → n.val = 0 ∨ s.I.toNat + n.val - 1 ≤ 0xFFF →
    Completes (.drw x y n) s fun t =>
      (∀ r c, t.pixel r c = (s.pixel r c ^^ spriteAt s x y n.val r c)) ∧
      ((∃ r c, s.pixel r c = true ∧ spriteAt s x y n.val r c = true) → t.v 15 = 1) ∧
      ((∀ r c, s.pixel r c = true → spriteAt s x y n.val r c = false) → t.v 15 = 0) ∧
      ChangesOnly (fun p => p = .v 15 ∨ ∃ r c, p = .pixel r c) s t

/-- R122 (a rule the spec derives). For `x != 0xF` and `y != 0xF` a second draw of the sprite restores the framebuffer,
and leaves VF = 1 exactly when some sprite bit lands on a pixel that was off before the first draw. -/
def Obligations.DrawTwiceRestores : Prop :=
  ∀ (x y : Reg) (n : Fin 16) (s : State), x ≠ 15 → y ≠ 15 → n.val = 0 ∨ s.I.toNat + n.val - 1 ≤ 0xFFF →
    Completes (.drw x y n) s fun t => Completes (.drw x y n) t fun u =>
      (∀ r c, u.pixel r c = s.pixel r c) ∧
      (u.v 15 = 1 ↔ ∃ r c, s.pixel r c = false ∧ spriteAt s x y n.val r c = true) ∧
      (u.v 15 = 0 ↔ ∀ r c, s.pixel r c = false → spriteAt s x y n.val r c = false)

/-- R121, R42 (own: D10, D27; log 7). A sprite byte outside memory: VF and the framebuffer keep their values. -/
def Obligations.DrawOutsideMemoryRaises : Prop :=
  ∀ (x y : Reg) (n : Fin 16) (s : State), 1 ≤ n.val → 0xFFF < s.I.toNat + n.val - 1 → Raises (.drw x y n) s .dataRead s.I

/-! ## Keypad and timers -/

/-- 44_keypad_timers.md R130, R131 (own: D7 for a value that is no key number; log 7). -/
def Obligations.SkipOnKeyLevel : Prop :=
  Decodes 0xF0FF 0xE09E (fun w => .skp (fieldX w)) ∧ Decodes 0xF0FF 0xE0A1 (fun w => .sknp (fieldX w)) ∧
  ∀ x s,
    (∀ k : Fin 16, (s.v x).toNat = k.val →
      (Completes (.skp x) s fun t =>
        t.pc = (if s.keyDown k = true then s.pc + 2 else s.pc) ∧ ChangesOnly (fun p => p = .pc) s t) ∧
      (Completes (.sknp x) s fun t =>
        t.pc = (if s.keyDown k = true then s.pc else s.pc + 2) ∧ ChangesOnly (fun p => p = .pc) s t)) ∧
    (15 < (s.v x).toNat → ∀ info : Word, info.toNat = (s.v x).toNat →
      Raises (.skp x) s .keyIndex info ∧ Raises (.sknp x) s .keyIndex info)

/-- R133 (own: D26; log 7). With no key down `pc` goes back to the instruction and nothing else changes; else `V[x]`
gets the lowest number of a key that is down. -/
def Obligations.WaitForKey : Prop :=
  Decodes 0xF0FF 0xF00A (fun w => .ldVxK (fieldX w)) ∧
  ∀ x s,
    ((∀ k, s.keyDown k = false) → Completes (.ldVxK x) s fun t =>
      t.pc = s.pc - 2 ∧ ChangesOnly (fun p => p = .pc) s t) ∧
    (∀ k : Fin 16, s.keyDown k = true → (∀ j, j < k → s.keyDown j = false) → Completes (.ldVxK x) s fun t =>
      (t.v x).toNat = k.val ∧ ChangesOnly (fun p => p = .v x) s t)

/-- R132, R134, R135. -/
def Obligations.TimerMoves : Prop :=
  Decodes 0xF0FF 0xF007 (fun w => .ldVxDT (fieldX w)) ∧ Decodes 0xF0FF 0xF015 (fun w => .ldDTVx (fieldX w)) ∧
  Decodes 0xF0FF 0xF018 (fun w => .ldSTVx (fieldX w)) ∧
  ∀ x s,
    (Completes (.ldVxDT x) s fun t => t.v x = s.DT ∧ ChangesOnly (fun p => p = .v x) s t) ∧
    (Completes (.ldDTVx x) s fun t => t.DT = s.v x ∧ ChangesOnly (fun p => p = .DT) s t) ∧
    (Completes (.ldSTVx x) s fun t => t.ST = s.v x ∧ ChangesOnly (fun p => p = .ST) s t)

/-! ## Unrecognised words -/

/-- 45_unrecognised.md R140, R57 (own: D13; `diag` is log 4). -/
def Obligations.UnrecognisedIsNoOperation : Prop :=
  ∀ w, unrecognised w = true → decodeWord w = .undef w ∧
    ∀ s, Completes (.undef w) s fun t => t.diag = true ∧ ChangesOnly (fun p => p = .diag) s t

/-- 60_exceptions.md R166 (own: D13; log 4). A Step that completes has `diag` 1 when its word is unrecognised and else
0. -/
def Obligations.DiagOnlyOnUnrecognised : Prop :=
  ∀ (s t : State) (w : Word), NextIsStep s → s.fetch s.pc = some w → step s = .next t → t.diag = unrecognised w

/-! ## Exceptions and the whole machine -/

/-- 60_exceptions.md R158, R154 (own: D3, D10; log 7, that raising is a next state). R158 says that every instruction is
available at all times; the model answers each one, in every state, with a next state, a raise among them. -/
def Obligations.EveryInstructionCompletes : Prop := ∀ (i : Instr) (s : State), ∃ t, exec i s = .next t

/-- R154 (own: D3, D10, D12; log 7). A Step that latches a fault leaves every other element of the spec's state as it
was before the Step, `pc` among them, and the record names that `pc`. -/
def Obligations.FaultingStepIsPrecise : Prop :=
  ∀ (s t : State) (f : FaultRecord), NextIsStep s → s.fault = none → step s = .next t → t.fault = some f →
    f.kind = .outOfBounds ∧ f.pc0 = s.pc ∧
    ChangesOnly (fun p => p = .fault ∨ p.architectural = false) s t

/-- R151 (own: D7, D11; log 7). An instruction raises only on its own condition, with its own cause and `info`; no other
instruction raises. -/
def Obligations.OnlyTheseConditionsRaise : Prop :=
  ∀ (i : Instr) (s t : State), s.fault = none → exec i s = .next t → ∀ f, t.fault = some f →
    (i = .ret ∧ s.sp.val = 0 ∧ f.cause = .stackUnderflow ∧ f.info = 0) ∨
    (∃ nnn, i = .call nnn ∧ s.sp.val = 16 ∧ f.cause = .stackOverflow ∧ f.info = 16) ∨
    (∃ x y n, i = .drw x y n ∧ 1 ≤ n.val ∧ 0xFFF < s.I.toNat + n.val - 1 ∧ f.cause = .dataRead ∧ f.info = s.I) ∨
    (∃ x, i = .loadRegs x ∧ 0xFFF < s.I.toNat + x.val ∧ f.cause = .dataRead ∧ f.info = s.I) ∨
    (∃ x, i = .ldB x ∧ 0xFFF < s.I.toNat + 2 ∧ f.cause = .dataWrite ∧ f.info = s.I) ∨
    (∃ x, i = .storeRegs x ∧ 0xFFF < s.I.toNat + x.val ∧ f.cause = .dataWrite ∧ f.info = s.I) ∨
    (∃ x, (i = .skp x ∨ i = .sknp x) ∧ 15 < (s.v x).toNat ∧ f.cause = .keyIndex ∧ f.info.toNat = (s.v x).toNat)

/-- R154, R155 (own: D3, D12; log 7, and log 11 for KeySet). On a halted machine no Step and no Tick is performed,
queued or not, and no event but Reset changes the latch. -/
def Obligations.HaltedUntilReset : Prop :=
  ∀ (s : State) (f : FaultRecord), s.fault = some f →
    (s.inputs = [] → step s = .fault (.halted f)) ∧
    (∀ r, fire (.step r) s = .fault (.halted f)) ∧ fire .tick s = .fault (.halted f) ∧
    (∀ e t, e ≠ .reset → fire e s = .next t → t.fault = some f)

/-- 10_state.md, the "written by" column of section 1 (R12, R14, R15, R16, R17, R18, R13). Which instructions can change
which element; every other instruction leaves it, and none writes the keypad. -/
def Obligations.ElementsHaveTheirWriters : Prop :=
  ∀ (i : Instr) (s t : State), exec i s = .next t →
    (t.I ≠ s.I → (∃ nnn, i = .ldI nnn) ∨ ∃ x, i = .addI x) ∧
    (t.sp ≠ s.sp → i = .ret ∨ ∃ nnn, i = .call nnn) ∧
    ((∃ k, t.slot k ≠ s.slot k) → ∃ nnn, i = .call nnn) ∧
    (t.DT ≠ s.DT → ∃ x, i = .ldDTVx x) ∧
    (t.ST ≠ s.ST → ∃ x, i = .ldSTVx x) ∧
    ((∃ r c, t.pixel r c ≠ s.pixel r c) → i = .cls ∨ ∃ x y n, i = .drw x y n) ∧
    (∀ k, t.keyDown k = s.keyDown k) ∧
    ((∃ a, t.byteAt a ≠ s.byteAt a) → (∃ x, i = .ldB x) ∨ ∃ x, i = .storeRegs x) ∧
    (s.fault = none → t.fault = none → t.pc ≠ s.pc →
      (∃ nnn, i = .jp nnn ∨ i = .call nnn ∨ i = .jpV0 nnn) ∨ i = .ret ∨ (∃ x kk, i = .seImm x kk ∨ i = .sneImm x kk) ∨
      (∃ x y, i = .seReg x y ∨ i = .sneReg x y) ∨ ∃ x, i = .skp x ∨ i = .sknp x ∨ i = .ldVxK x)

/-- R71, R197. The Step of a jump to itself changes no element of the spec's state. -/
def Obligations.SelfJumpRests : Prop :=
  ∀ (s : State) (a : Addr12), s.fault = none → NextIsStep s → s.pc.toNat = a.toNat →
    s.fetch s.pc = some (encodeWord (.jp a)) →
    ∃ t, step s = .next t ∧ ChangesOnly (fun p => p.architectural = false) s t

/-! ## Invariants: kept by every event from every state that has them -/

/-- 20_memory.md R30; the list form is log 1. Memory keeps its canonical form, with no address outside the 4096 bytes. -/
def Obligations.StepKeepsMemoryCanonical : Prop := ∀ s t, MemCanonical s → step s = .next t → MemCanonical t

/-- 10_state.md R13, 40_flow.md R70, R72, R77 (own: D4, D18; log 7). `pc` never passes 0x10FE and every live return
address is in 0x002..0x1000. -/
def Obligations.StepKeepsPcBounded : Prop := ∀ s t, PcBounded s → step s = .next t → PcBounded t

/-- 10_state.md R19, 60_exceptions.md R151, R154 (own: D3, D7, D10, D11; log 7, which marks the state after a fault
DEDUCED). A latched record tells the truth about the state it stands in. -/
def Obligations.StepKeepsLatchTruthful : Prop := ∀ s t, LatchTruthful s → step s = .next t → LatchTruthful t

/-- The three invariants and safety hold at reset. -/
def Obligations.InvariantsAtReset : Prop :=
  MemCanonical State.reset ∧ PcBounded State.reset ∧ LatchTruthful State.reset ∧ Safe State.reset
end

