-- ==== Sys2Proof/Laws/Decode.lean ====
section
/-! SUPPORT. What the decoder's fields are as numbers, what a masked word says of them, and one lemma per row of the opcode
map (30_encoding.md R55). -/

namespace Sys2Proof

/-! The fields of R51 as numbers. -/

theorem opClass_eq (w : Word) : opClass w = w.toNat / 4096 := by
  have := w.isLt
  simp only [opClass, BitVec.extractLsb'_toNat, Nat.shiftRight_eq_div_pow]
  omega

theorem fieldNNN_toNat (w : Word) : (fieldNNN w).toNat = w.toNat % 4096 := by
  simp [fieldNNN, BitVec.extractLsb'_toNat]

theorem fieldX_val (w : Word) : (fieldX w).val = w.toNat / 256 % 16 := by
  simp [fieldX, BitVec.extractLsb'_toNat, Nat.shiftRight_eq_div_pow]

theorem fieldY_val (w : Word) : (fieldY w).val = w.toNat / 16 % 16 := by
  simp [fieldY, BitVec.extractLsb'_toNat, Nat.shiftRight_eq_div_pow]

theorem fieldN_val (w : Word) : (fieldN w).val = w.toNat % 16 := by
  simp [fieldN, BitVec.extractLsb'_toNat]

theorem fieldKK_toNat (w : Word) : (fieldKK w).toNat = w.toNat % 256 := by
  simp [fieldKK, BitVec.extractLsb'_toNat]

theorem opClass_lt (w : Word) : opClass w < 16 := by
  have := w.isLt
  rw [opClass_eq]; omega

/-! A masked word. -/

theorem and_F000_toNat (w : Word) : (w &&& 0xF000#16).toNat = opClass w * 4096 := by
  have h : w &&& 0xF000#16 = (w >>> 12) <<< 12 := by
    apply BitVec.eq_of_getLsbD_eq
    intro i hi
    interval_cases i <;> simp
  have := w.isLt
  rw [h, opClass_eq]
  simp only [BitVec.toNat_shiftLeft, BitVec.toNat_ushiftRight, Nat.shiftRight_eq_div_pow, Nat.shiftLeft_eq]
  omega

theorem and_000F_toNat (w : Word) : (w &&& 0x000F#16).toNat = (fieldN w).val := by
  rw [BitVec.toNat_and, fieldN_val]
  exact Nat.and_two_pow_sub_one_eq_mod w.toNat 4

theorem and_00FF_toNat (w : Word) : (w &&& 0x00FF#16).toNat = (fieldKK w).toNat := by
  rw [BitVec.toNat_and, fieldKK_toNat]
  exact Nat.and_two_pow_sub_one_eq_mod w.toNat 8

theorem and_F00F_toNat (w : Word) : (w &&& 0xF00F#16).toNat = opClass w * 4096 + (fieldN w).val := by
  have h : w &&& 0xF00F#16 = (w &&& 0xF000#16) + (w &&& 0x000F#16) := by
    rw [BitVec.add_eq_or_of_and_eq_zero, ← BitVec.and_or_distrib_left]
    · rfl
    · apply BitVec.eq_of_getLsbD_eq
      intro i hi
      interval_cases i <;> simp
  have := opClass_lt w
  rw [h, BitVec.toNat_add, and_F000_toNat, and_000F_toNat]
  omega

theorem and_F0FF_toNat (w : Word) : (w &&& 0xF0FF#16).toNat = opClass w * 4096 + (fieldKK w).toNat := by
  have h : w &&& 0xF0FF#16 = (w &&& 0xF000#16) + (w &&& 0x00FF#16) := by
    rw [BitVec.add_eq_or_of_and_eq_zero, ← BitVec.and_or_distrib_left]
    · rfl
    · apply BitVec.eq_of_getLsbD_eq
      intro i hi
      interval_cases i <;> simp
  have := opClass_lt w
  have := (fieldKK w).isLt
  rw [h, BitVec.toNat_add, and_F000_toNat, and_00FF_toNat]
  omega

/-- A word of a class, by its mask. -/
theorem and_F000_eq_iff (w p : Word) (hp : p.toNat % 4096 = 0) : w &&& (0xF000 : Word) = p ↔ opClass w = p.toNat / 4096 := by
  have h : (w &&& (0xF000 : Word)).toNat = _ := and_F000_toNat w
  rw [← BitVec.toNat_inj]; omega

/-- A word of a class with a second-level nibble, by its mask. -/
theorem and_F00F_eq_iff (w p : Word) (hp : p.toNat % 4096 < 16) :
    w &&& (0xF00F : Word) = p ↔ opClass w = p.toNat / 4096 ∧ (fieldN w).val = p.toNat % 16 := by
  have := (fieldN w).isLt
  have h : (w &&& (0xF00F : Word)).toNat = _ := and_F00F_toNat w
  rw [← BitVec.toNat_inj]; omega

/-- A word of a class with a second-level byte, by its mask. -/
theorem and_F0FF_eq_iff (w p : Word) (hp : p.toNat % 4096 < 256) :
    w &&& (0xF0FF : Word) = p ↔ opClass w = p.toNat / 4096 ∧ (fieldKK w).toNat = p.toNat % 256 := by
  have := (fieldKK w).isLt
  have h : (w &&& (0xF0FF : Word)).toNat = _ := and_F0FF_toNat w
  rw [← BitVec.toNat_inj]; omega

theorem and_000F_eq_iff (w p : Word) : w &&& (0x000F : Word) = p ↔ (fieldN w).val = p.toNat := by
  have h : (w &&& (0x000F : Word)).toNat = _ := and_000F_toNat w
  rw [← BitVec.toNat_inj]; omega

theorem and_00FF_eq_iff (w p : Word) : w &&& (0x00FF : Word) = p ↔ (fieldKK w).toNat = p.toNat := by
  have h : (w &&& (0x00FF : Word)).toNat = _ := and_00FF_toNat w
  rw [← BitVec.toNat_inj]; omega

/-! The rows of the opcode map (R55): every word of the row is the row's instruction. -/

open Machine (Decodes)

/-- A row chosen by the class alone. -/
theorem decodes_F000 (p : Word) (build : Word → Instr) (hp : p.toNat % 4096 = 0)
    (hb : ∀ w, decodeInClass (p.toNat / 4096) w = build w) : Decodes 0xF000 p build := by
  intro w h
  rw [decodeWord, (and_F000_eq_iff w p hp).mp h, hb]

/-- A row chosen by the class and `n`. -/
theorem decodes_F00F (p : Word) (build : Word → Instr) (hp : p.toNat % 4096 < 16)
    (hb : ∀ w, (fieldN w).val = p.toNat % 16 → decodeInClass (p.toNat / 4096) w = build w) : Decodes 0xF00F p build := by
  intro w h
  obtain ⟨hc, hn⟩ := (and_F00F_eq_iff w p hp).mp h
  rw [decodeWord, hc, hb w hn]

/-- A row chosen by the class and `kk`. -/
theorem decodes_F0FF (p : Word) (build : Word → Instr) (hp : p.toNat % 4096 < 256)
    (hb : ∀ w, (fieldKK w).toNat = p.toNat % 256 → decodeInClass (p.toNat / 4096) w = build w) :
    Decodes 0xF0FF p build := by
  intro w h
  obtain ⟨hc, hn⟩ := (and_F0FF_eq_iff w p hp).mp h
  rw [decodeWord, hc, hb w hn]

theorem decodes_cls : Decodes 0xF00F 0x0000 (fun _ => .cls) :=
  decodes_F00F _ _ (by decide) fun w h => by simp [decodeInClass, decodeClass0, h]

theorem decodes_ret : Decodes 0xF00F 0x000E (fun _ => .ret) :=
  decodes_F00F _ _ (by decide) fun w h => by simp [decodeInClass, decodeClass0, h]

theorem decodes_jp : Decodes 0xF000 0x1000 (fun w => .jp (fieldNNN w)) :=
  decodes_F000 _ _ (by decide) fun _ => rfl

theorem decodes_call : Decodes 0xF000 0x2000 (fun w => .call (fieldNNN w)) :=
  decodes_F000 _ _ (by decide) fun _ => rfl

theorem decodes_seImm : Decodes 0xF000 0x3000 (fun w => .seImm (fieldX w) (fieldKK w)) :=
  decodes_F000 _ _ (by decide) fun _ => rfl

theorem decodes_sneImm : Decodes 0xF000 0x4000 (fun w => .sneImm (fieldX w) (fieldKK w)) :=
  decodes_F000 _ _ (by decide) fun _ => rfl

theorem decodes_seReg : Decodes 0xF000 0x5000 (fun w => .seReg (fieldX w) (fieldY w)) :=
  decodes_F000 _ _ (by decide) fun _ => rfl

theorem decodes_ldImm : Decodes 0xF000 0x6000 (fun w => .ldImm (fieldX w) (fieldKK w)) :=
  decodes_F000 _ _ (by decide) fun _ => rfl

theorem decodes_addImm : Decodes 0xF000 0x7000 (fun w => .addImm (fieldX w) (fieldKK w)) :=
  decodes_F000 _ _ (by decide) fun _ => rfl

theorem decodes_ldReg : Decodes 0xF00F 0x8000 (fun w => .ldReg (fieldX w) (fieldY w)) :=
  decodes_F00F _ _ (by decide) fun w h => by simp [decodeInClass, decodeClass8, h]

theorem decodes_orReg : Decodes 0xF00F 0x8001 (fun w => .orReg (fieldX w) (fieldY w)) :=
  decodes_F00F _ _ (by decide) fun w h => by simp [decodeInClass, decodeClass8, h]

theorem decodes_andReg : Decodes 0xF00F 0x8002 (fun w => .andReg (fieldX w) (fieldY w)) :=
  decodes_F00F _ _ (by decide) fun w h => by simp [decodeInClass, decodeClass8, h]

theorem decodes_xorReg : Decodes 0xF00F 0x8003 (fun w => .xorReg (fieldX w) (fieldY w)) :=
  decodes_F00F _ _ (by decide) fun w h => by simp [decodeInClass, decodeClass8, h]

theorem decodes_addReg : Decodes 0xF00F 0x8004 (fun w => .addReg (fieldX w) (fieldY w)) :=
  decodes_F00F _ _ (by decide) fun w h => by simp [decodeInClass, decodeClass8, h]

theorem decodes_sub : Decodes 0xF00F 0x8005 (fun w => .sub (fieldX w) (fieldY w)) :=
  decodes_F00F _ _ (by decide) fun w h => by simp [decodeInClass, decodeClass8, h]

theorem decodes_shr : Decodes 0xF00F 0x8006 (fun w => .shr (fieldX w)) :=
  decodes_F00F _ _ (by decide) fun w h => by simp [decodeInClass, decodeClass8, h]

theorem decodes_subn : Decodes 0xF00F 0x8007 (fun w => .subn (fieldX w) (fieldY w)) :=
  decodes_F00F _ _ (by decide) fun w h => by simp [decodeInClass, decodeClass8, h]

theorem decodes_shl : Decodes 0xF00F 0x800E (fun w => .shl (fieldX w)) :=
  decodes_F00F _ _ (by decide) fun w h => by simp [decodeInClass, decodeClass8, h]

theorem decodes_sneReg : Decodes 0xF000 0x9000 (fun w => .sneReg (fieldX w) (fieldY w)) :=
  decodes_F000 _ _ (by decide) fun _ => rfl

theorem decodes_ldI : Decodes 0xF000 0xA000 (fun w => .ldI (fieldNNN w)) :=
  decodes_F000 _ _ (by decide) fun _ => rfl

theorem decodes_jpV0 : Decodes 0xF000 0xB000 (fun w => .jpV0 (fieldNNN w)) :=
  decodes_F000 _ _ (by decide) fun _ => rfl

theorem decodes_rnd : Decodes 0xF000 0xC000 (fun w => .rnd (fieldX w) (fieldKK w)) :=
  decodes_F000 _ _ (by decide) fun _ => rfl

theorem decodes_drw : Decodes 0xF000 0xD000 (fun w => .drw (fieldX w) (fieldY w) (fieldN w)) :=
  decodes_F000 _ _ (by decide) fun _ => rfl

theorem decodes_skp : Decodes 0xF0FF 0xE09E (fun w => .skp (fieldX w)) :=
  decodes_F0FF _ _ (by decide) fun w h => by simp [decodeInClass, decodeClassE, h]

theorem decodes_sknp : Decodes 0xF0FF 0xE0A1 (fun w => .sknp (fieldX w)) :=
  decodes_F0FF _ _ (by decide) fun w h => by simp [decodeInClass, decodeClassE, h]

theorem decodes_ldVxDT : Decodes 0xF0FF 0xF007 (fun w => .ldVxDT (fieldX w)) :=
  decodes_F0FF _ _ (by decide) fun w h => by simp [decodeInClass, decodeClassF, h]

theorem decodes_ldVxK : Decodes 0xF0FF 0xF00A (fun w => .ldVxK (fieldX w)) :=
  decodes_F0FF _ _ (by decide) fun w h => by simp [decodeInClass, decodeClassF, h]

theorem decodes_ldDTVx : Decodes 0xF0FF 0xF015 (fun w => .ldDTVx (fieldX w)) :=
  decodes_F0FF _ _ (by decide) fun w h => by simp [decodeInClass, decodeClassF, h]

theorem decodes_ldSTVx : Decodes 0xF0FF 0xF018 (fun w => .ldSTVx (fieldX w)) :=
  decodes_F0FF _ _ (by decide) fun w h => by simp [decodeInClass, decodeClassF, h]

theorem decodes_addI : Decodes 0xF0FF 0xF01E (fun w => .addI (fieldX w)) :=
  decodes_F0FF _ _ (by decide) fun w h => by simp [decodeInClass, decodeClassF, h]

theorem decodes_ldB : Decodes 0xF0FF 0xF033 (fun w => .ldB (fieldX w)) :=
  decodes_F0FF _ _ (by decide) fun w h => by simp [decodeInClass, decodeClassF, h]

theorem decodes_storeRegs : Decodes 0xF0FF 0xF055 (fun w => .storeRegs (fieldX w)) :=
  decodes_F0FF _ _ (by decide) fun w h => by simp [decodeInClass, decodeClassF, h]

theorem decodes_loadRegs : Decodes 0xF0FF 0xF065 (fun w => .loadRegs (fieldX w)) :=
  decodes_F0FF _ _ (by decide) fun w h => by simp [decodeInClass, decodeClassF, h]

/-- The word's row in the table is what the decoder reads (R55), for every row. -/
theorem decodes_row : ∀ row ∈ opRows, Decodes row.mask row.pattern row.build := by
  simp only [opRows, List.cons_append, List.nil_append, List.forall_mem_cons, List.not_mem_nil, false_implies,
    implies_true, and_true]
  exact ⟨decodes_cls, decodes_ret, decodes_jp, decodes_call, decodes_seImm, decodes_sneImm, decodes_seReg, decodes_ldImm, decodes_addImm, decodes_ldReg, decodes_orReg, decodes_andReg, decodes_xorReg, decodes_addReg, decodes_sub, decodes_shr, decodes_subn, decodes_shl, decodes_sneReg, decodes_ldI, decodes_jpV0, decodes_rnd, decodes_drw, decodes_skp, decodes_sknp, decodes_ldVxDT, decodes_ldVxK, decodes_ldDTVx, decodes_ldSTVx, decodes_addI, decodes_ldB, decodes_storeRegs, decodes_loadRegs⟩

/-! Unrecognised words (R57). -/

theorem unrecognised_iff (w : Word) : unrecognised w = true ↔
    (opClass w = 0 ∧ ¬((fieldN w).val = 0 ∨ (fieldN w).val = 0xE)) ∨
    (opClass w = 8 ∧ ((fieldN w).val = 0x8 ∨ (fieldN w).val = 0x9 ∨ (fieldN w).val = 0xA ∨ (fieldN w).val = 0xB ∨
      (fieldN w).val = 0xC ∨ (fieldN w).val = 0xD ∨ (fieldN w).val = 0xF)) ∨
    (opClass w = 0xE ∧ ¬((fieldKK w).toNat = 0x9E ∨ (fieldKK w).toNat = 0xA1)) ∨
    (opClass w = 0xF ∧ ¬((fieldKK w).toNat = 0x07 ∨ (fieldKK w).toNat = 0x0A ∨ (fieldKK w).toNat = 0x15 ∨
      (fieldKK w).toNat = 0x18 ∨ (fieldKK w).toNat = 0x1E ∨ (fieldKK w).toNat = 0x33 ∨ (fieldKK w).toNat = 0x55 ∨
      (fieldKK w).toNat = 0x65)) := by
  have h0 : w &&& 0xF000#16 = 0x0000#16 ↔ opClass w = 0 := and_F000_eq_iff w 0x0000 (by decide)
  have h8 : w &&& 0xF000#16 = 0x8000#16 ↔ opClass w = 8 := and_F000_eq_iff w 0x8000 (by decide)
  have hE : w &&& 0xF000#16 = 0xE000#16 ↔ opClass w = 0xE := and_F000_eq_iff w 0xE000 (by decide)
  have hF : w &&& 0xF000#16 = 0xF000#16 ↔ opClass w = 0xF := and_F000_eq_iff w 0xF000 (by decide)
  have hn : ∀ p : Word, w &&& 0x000F#16 = p ↔ (fieldN w).val = p.toNat := and_000F_eq_iff w
  have hk : ∀ p : Word, w &&& 0x00FF#16 = p ↔ (fieldKK w).toNat = p.toNat := and_00FF_eq_iff w
  simp [unrecognised, h0, h8, hE, hF, hn, hk, -Fin.val_eq_zero_iff]
  omega

/-- An unrecognised word decodes to `undef` of itself. -/
theorem decodeWord_of_unrecognised {w : Word} (h : unrecognised w = true) : decodeWord w = .undef w := by
  rcases (unrecognised_iff w).mp h with ⟨hc, hn⟩ | ⟨hc, hn⟩ | ⟨hc, hn⟩ | ⟨hc, hn⟩
  · rw [decodeWord, hc]
    simp only [decodeInClass, decodeClass0]
    split <;> simp_all
  · rw [decodeWord, hc]
    rcases hn with h | h | h | h | h | h | h <;> simp [decodeInClass, decodeClass8, h]
  · rw [decodeWord, hc]
    simp only [decodeInClass, decodeClassE]
    split <;> simp_all
  · rw [decodeWord, hc]
    simp only [decodeInClass, decodeClassF]
    split <;> simp_all

/-- Every word is in a row of the opcode map or unrecognised (R57, R58). -/
theorem row_or_unrecognised (w : Word) :
    (∃ row ∈ opRows, w &&& row.mask = row.pattern) ∨ unrecognised w = true := by
  by_contra hno
  obtain ⟨h, hu⟩ := not_or.mp hno
  have h : ∀ row ∈ opRows, ¬(w &&& row.mask = row.pattern) := fun row hr hw => h ⟨row, hr, hw⟩
  simp only [opRows, List.cons_append, List.nil_append, List.forall_mem_cons, List.not_mem_nil, false_implies,
    implies_true, and_true] at h
  simp (disch := decide) only [and_F000_eq_iff, and_F00F_eq_iff, and_F0FF_eq_iff] at h
  rw [unrecognised_iff] at hu
  have hl := opClass_lt w
  interval_cases hc : opClass w <;> simp [-Fin.val_eq_zero_iff] at h hu <;> omega

/-! The encoder's words. -/

theorem opClass_wordNNN {c : Nat} (hc : c < 16) (nnn : Addr12) : opClass (wordNNN c nnn) = c := by
  have := nnn.isLt
  rw [opClass_eq, wordNNN, BitVec.toNat_ofNat]; omega

theorem fieldNNN_wordNNN {c : Nat} (nnn : Addr12) : fieldNNN (wordNNN c nnn) = nnn := by
  have := nnn.isLt
  apply BitVec.eq_of_toNat_eq
  rw [fieldNNN_toNat, wordNNN, BitVec.toNat_ofNat]; omega

theorem opClass_wordXKK {c : Nat} (hc : c < 16) (x : Reg) (kk : Byte) : opClass (wordXKK c x kk) = c := by
  have := x.isLt; have := kk.isLt
  rw [opClass_eq, wordXKK, BitVec.toNat_ofNat]; omega

theorem fieldX_wordXKK {c : Nat} (x : Reg) (kk : Byte) : fieldX (wordXKK c x kk) = x := by
  have := x.isLt; have := kk.isLt
  apply Fin.ext
  rw [fieldX_val, wordXKK, BitVec.toNat_ofNat]; omega

theorem fieldKK_wordXKK {c : Nat} (x : Reg) (kk : Byte) : fieldKK (wordXKK c x kk) = kk := by
  have := x.isLt; have := kk.isLt
  apply BitVec.eq_of_toNat_eq
  rw [fieldKK_toNat, wordXKK, BitVec.toNat_ofNat]; omega

theorem opClass_wordXYN {c : Nat} (hc : c < 16) (x y n : Fin 16) : opClass (wordXYN c x y n) = c := by
  have := x.isLt; have := y.isLt; have := n.isLt
  rw [opClass_eq, wordXYN, BitVec.toNat_ofNat]; omega

theorem fieldX_wordXYN {c : Nat} (x y n : Fin 16) : fieldX (wordXYN c x y n) = x := by
  have := x.isLt; have := y.isLt; have := n.isLt
  apply Fin.ext
  rw [fieldX_val, wordXYN, BitVec.toNat_ofNat]; omega

theorem fieldY_wordXYN {c : Nat} (x y n : Fin 16) : fieldY (wordXYN c x y n) = y := by
  have := x.isLt; have := y.isLt; have := n.isLt
  apply Fin.ext
  rw [fieldY_val, wordXYN, BitVec.toNat_ofNat]; omega

theorem fieldN_wordXYN {c : Nat} (x y n : Fin 16) : fieldN (wordXYN c x y n) = n := by
  have := x.isLt; have := y.isLt; have := n.isLt
  apply Fin.ext
  rw [fieldN_val, wordXYN, BitVec.toNat_ofNat]; omega

/-- The bytes of a joined word (20_memory.md R33). -/
theorem highByte_joinBytes (hi lo : Byte) : highByte (joinBytes hi lo) = hi := by
  have := hi.isLt; have := lo.isLt
  apply BitVec.eq_of_toNat_eq
  simp only [highByte, joinBytes, BitVec.extractLsb'_toNat, BitVec.toNat_ofNat, Nat.shiftRight_eq_div_pow]
  omega

theorem lowByte_joinBytes (hi lo : Byte) : lowByte (joinBytes hi lo) = lo := by
  have := hi.isLt; have := lo.isLt
  apply BitVec.eq_of_toNat_eq
  simp only [lowByte, joinBytes, BitVec.extractLsb'_toNat, BitVec.toNat_ofNat, Nat.shiftRight_eq_div_pow]
  omega

/-- Joining a word's two bytes, in the order memory holds them, gives the word (20_memory.md R33). -/
theorem joinBytes_high_low (w : Word) : joinBytes (highByte w) (lowByte w) = w := by
  have := w.isLt
  apply BitVec.eq_of_toNat_eq
  simp only [joinBytes, highByte, lowByte, BitVec.toNat_ofNat, BitVec.extractLsb'_toNat, Nat.shiftRight_eq_div_pow]
  omega

/-- Two words agree under a mask when no bit that differs is under it. -/
theorem xor_and_eq_zero_iff (w v m : Word) : (w ^^^ v) &&& m = 0 ↔ w &&& m = v &&& m := by
  constructor <;> intro h
  · apply BitVec.eq_of_getLsbD_eq
    intro i hi
    have := congrArg (·.getLsbD i) h
    simp only [BitVec.getLsbD_and, BitVec.getLsbD_xor] at *
    revert this; simp
    cases w.getLsbD i <;> cases v.getLsbD i <;> cases m.getLsbD i <;> simp
  · apply BitVec.eq_of_getLsbD_eq
    intro i hi
    have := congrArg (·.getLsbD i) h
    simp only [BitVec.getLsbD_and, BitVec.getLsbD_xor] at *
    revert this; simp
    cases w.getLsbD i <;> cases v.getLsbD i <;> cases m.getLsbD i <;> simp

end Sys2Proof
end

