-- ==== Sys2Proof/Laws/State.lean ====
section
/-! SUPPORT. The small lemmas of the state's updates: one per part and update. A part an update does not touch is unchanged
(by rfl); a part it does touch has the value the update's definition gives. -/

namespace Sys2Proof.Machine

variable (s : State)


/-! `setByte`. -/

@[simp] theorem State.setByte_V (d : Nat) (b : Byte) : (s.setByte d b).V = s.V := rfl
@[simp] theorem State.setByte_I (d : Nat) (b : Byte) : (s.setByte d b).I = s.I := rfl
@[simp] theorem State.setByte_pc (d : Nat) (b : Byte) : (s.setByte d b).pc = s.pc := rfl
@[simp] theorem State.setByte_stack (d : Nat) (b : Byte) : (s.setByte d b).stack = s.stack := rfl
@[simp] theorem State.setByte_sp (d : Nat) (b : Byte) : (s.setByte d b).sp = s.sp := rfl
@[simp] theorem State.setByte_DT (d : Nat) (b : Byte) : (s.setByte d b).DT = s.DT := rfl
@[simp] theorem State.setByte_ST (d : Nat) (b : Byte) : (s.setByte d b).ST = s.ST := rfl
@[simp] theorem State.setByte_fb (d : Nat) (b : Byte) : (s.setByte d b).fb = s.fb := rfl
@[simp] theorem State.setByte_key (d : Nat) (b : Byte) : (s.setByte d b).key = s.key := rfl
@[simp] theorem State.setByte_fault (d : Nat) (b : Byte) : (s.setByte d b).fault = s.fault := rfl
@[simp] theorem State.setByte_rand (d : Nat) (b : Byte) : (s.setByte d b).rand = s.rand := rfl
@[simp] theorem State.setByte_draws (d : Nat) (b : Byte) : (s.setByte d b).draws = s.draws := rfl
@[simp] theorem State.setByte_diag (d : Nat) (b : Byte) : (s.setByte d b).diag = s.diag := rfl
@[simp] theorem State.setByte_phase (d : Nat) (b : Byte) : (s.setByte d b).phase = s.phase := rfl
@[simp] theorem State.setByte_inputs (d : Nat) (b : Byte) : (s.setByte d b).inputs = s.inputs := rfl
@[simp] theorem State.setByte_v (d : Nat) (b : Byte) (q : Reg) : (s.setByte d b).v q = s.v q := rfl
@[simp] theorem State.setByte_slot (d : Nat) (b : Byte) (k : Fin 16) : (s.setByte d b).slot k = s.slot k := rfl
@[simp] theorem State.setByte_pixel (d : Nat) (b : Byte) (row : Fin 32) (col : Fin 64) : (s.setByte d b).pixel row col = s.pixel row col := rfl
@[simp] theorem State.setByte_keyDown (d : Nat) (b : Byte) (k : Fin 16) : (s.setByte d b).keyDown k = s.keyDown k := rfl

/-! `setV`. -/

@[simp] theorem State.setV_I (r : Reg) (b : Byte) : (s.setV r b).I = s.I := rfl
@[simp] theorem State.setV_pc (r : Reg) (b : Byte) : (s.setV r b).pc = s.pc := rfl
@[simp] theorem State.setV_stack (r : Reg) (b : Byte) : (s.setV r b).stack = s.stack := rfl
@[simp] theorem State.setV_sp (r : Reg) (b : Byte) : (s.setV r b).sp = s.sp := rfl
@[simp] theorem State.setV_DT (r : Reg) (b : Byte) : (s.setV r b).DT = s.DT := rfl
@[simp] theorem State.setV_ST (r : Reg) (b : Byte) : (s.setV r b).ST = s.ST := rfl
@[simp] theorem State.setV_fb (r : Reg) (b : Byte) : (s.setV r b).fb = s.fb := rfl
@[simp] theorem State.setV_key (r : Reg) (b : Byte) : (s.setV r b).key = s.key := rfl
@[simp] theorem State.setV_mem (r : Reg) (b : Byte) : (s.setV r b).mem = s.mem := rfl
@[simp] theorem State.setV_fault (r : Reg) (b : Byte) : (s.setV r b).fault = s.fault := rfl
@[simp] theorem State.setV_rand (r : Reg) (b : Byte) : (s.setV r b).rand = s.rand := rfl
@[simp] theorem State.setV_draws (r : Reg) (b : Byte) : (s.setV r b).draws = s.draws := rfl
@[simp] theorem State.setV_diag (r : Reg) (b : Byte) : (s.setV r b).diag = s.diag := rfl
@[simp] theorem State.setV_phase (r : Reg) (b : Byte) : (s.setV r b).phase = s.phase := rfl
@[simp] theorem State.setV_inputs (r : Reg) (b : Byte) : (s.setV r b).inputs = s.inputs := rfl
@[simp] theorem State.setV_slot (r : Reg) (b : Byte) (k : Fin 16) : (s.setV r b).slot k = s.slot k := rfl
@[simp] theorem State.setV_pixel (r : Reg) (b : Byte) (row : Fin 32) (col : Fin 64) : (s.setV r b).pixel row col = s.pixel row col := rfl
@[simp] theorem State.setV_keyDown (r : Reg) (b : Byte) (k : Fin 16) : (s.setV r b).keyDown k = s.keyDown k := rfl
@[simp] theorem State.setV_byteAt (r : Reg) (b : Byte) (e : Nat) : (s.setV r b).byteAt e = s.byteAt e := rfl
@[simp] theorem State.setV_fetch (r : Reg) (b : Byte) (e : Word) : (s.setV r b).fetch e = s.fetch e := rfl

/-! `setI`. -/

@[simp] theorem State.setI_V (w : Word) : (s.setI w).V = s.V := rfl
@[simp] theorem State.setI_I (w : Word) : (s.setI w).I = w := rfl
@[simp] theorem State.setI_pc (w : Word) : (s.setI w).pc = s.pc := rfl
@[simp] theorem State.setI_stack (w : Word) : (s.setI w).stack = s.stack := rfl
@[simp] theorem State.setI_sp (w : Word) : (s.setI w).sp = s.sp := rfl
@[simp] theorem State.setI_DT (w : Word) : (s.setI w).DT = s.DT := rfl
@[simp] theorem State.setI_ST (w : Word) : (s.setI w).ST = s.ST := rfl
@[simp] theorem State.setI_fb (w : Word) : (s.setI w).fb = s.fb := rfl
@[simp] theorem State.setI_key (w : Word) : (s.setI w).key = s.key := rfl
@[simp] theorem State.setI_mem (w : Word) : (s.setI w).mem = s.mem := rfl
@[simp] theorem State.setI_fault (w : Word) : (s.setI w).fault = s.fault := rfl
@[simp] theorem State.setI_rand (w : Word) : (s.setI w).rand = s.rand := rfl
@[simp] theorem State.setI_draws (w : Word) : (s.setI w).draws = s.draws := rfl
@[simp] theorem State.setI_diag (w : Word) : (s.setI w).diag = s.diag := rfl
@[simp] theorem State.setI_phase (w : Word) : (s.setI w).phase = s.phase := rfl
@[simp] theorem State.setI_inputs (w : Word) : (s.setI w).inputs = s.inputs := rfl
@[simp] theorem State.setI_v (w : Word) (q : Reg) : (s.setI w).v q = s.v q := rfl
@[simp] theorem State.setI_slot (w : Word) (k : Fin 16) : (s.setI w).slot k = s.slot k := rfl
@[simp] theorem State.setI_pixel (w : Word) (row : Fin 32) (col : Fin 64) : (s.setI w).pixel row col = s.pixel row col := rfl
@[simp] theorem State.setI_keyDown (w : Word) (k : Fin 16) : (s.setI w).keyDown k = s.keyDown k := rfl
@[simp] theorem State.setI_byteAt (w : Word) (e : Nat) : (s.setI w).byteAt e = s.byteAt e := rfl
@[simp] theorem State.setI_fetch (w : Word) (e : Word) : (s.setI w).fetch e = s.fetch e := rfl

/-! `setPc`. -/

@[simp] theorem State.setPc_V (w : Word) : (s.setPc w).V = s.V := rfl
@[simp] theorem State.setPc_I (w : Word) : (s.setPc w).I = s.I := rfl
@[simp] theorem State.setPc_pc (w : Word) : (s.setPc w).pc = w := rfl
@[simp] theorem State.setPc_stack (w : Word) : (s.setPc w).stack = s.stack := rfl
@[simp] theorem State.setPc_sp (w : Word) : (s.setPc w).sp = s.sp := rfl
@[simp] theorem State.setPc_DT (w : Word) : (s.setPc w).DT = s.DT := rfl
@[simp] theorem State.setPc_ST (w : Word) : (s.setPc w).ST = s.ST := rfl
@[simp] theorem State.setPc_fb (w : Word) : (s.setPc w).fb = s.fb := rfl
@[simp] theorem State.setPc_key (w : Word) : (s.setPc w).key = s.key := rfl
@[simp] theorem State.setPc_mem (w : Word) : (s.setPc w).mem = s.mem := rfl
@[simp] theorem State.setPc_fault (w : Word) : (s.setPc w).fault = s.fault := rfl
@[simp] theorem State.setPc_rand (w : Word) : (s.setPc w).rand = s.rand := rfl
@[simp] theorem State.setPc_draws (w : Word) : (s.setPc w).draws = s.draws := rfl
@[simp] theorem State.setPc_diag (w : Word) : (s.setPc w).diag = s.diag := rfl
@[simp] theorem State.setPc_phase (w : Word) : (s.setPc w).phase = s.phase := rfl
@[simp] theorem State.setPc_inputs (w : Word) : (s.setPc w).inputs = s.inputs := rfl
@[simp] theorem State.setPc_v (w : Word) (q : Reg) : (s.setPc w).v q = s.v q := rfl
@[simp] theorem State.setPc_slot (w : Word) (k : Fin 16) : (s.setPc w).slot k = s.slot k := rfl
@[simp] theorem State.setPc_pixel (w : Word) (row : Fin 32) (col : Fin 64) : (s.setPc w).pixel row col = s.pixel row col := rfl
@[simp] theorem State.setPc_keyDown (w : Word) (k : Fin 16) : (s.setPc w).keyDown k = s.keyDown k := rfl
@[simp] theorem State.setPc_byteAt (w : Word) (e : Nat) : (s.setPc w).byteAt e = s.byteAt e := rfl
@[simp] theorem State.setPc_fetch (w : Word) (e : Word) : (s.setPc w).fetch e = s.fetch e := rfl

/-! `setDT`. -/

@[simp] theorem State.setDT_V (b : Byte) : (s.setDT b).V = s.V := rfl
@[simp] theorem State.setDT_I (b : Byte) : (s.setDT b).I = s.I := rfl
@[simp] theorem State.setDT_pc (b : Byte) : (s.setDT b).pc = s.pc := rfl
@[simp] theorem State.setDT_stack (b : Byte) : (s.setDT b).stack = s.stack := rfl
@[simp] theorem State.setDT_sp (b : Byte) : (s.setDT b).sp = s.sp := rfl
@[simp] theorem State.setDT_DT (b : Byte) : (s.setDT b).DT = b := rfl
@[simp] theorem State.setDT_ST (b : Byte) : (s.setDT b).ST = s.ST := rfl
@[simp] theorem State.setDT_fb (b : Byte) : (s.setDT b).fb = s.fb := rfl
@[simp] theorem State.setDT_key (b : Byte) : (s.setDT b).key = s.key := rfl
@[simp] theorem State.setDT_mem (b : Byte) : (s.setDT b).mem = s.mem := rfl
@[simp] theorem State.setDT_fault (b : Byte) : (s.setDT b).fault = s.fault := rfl
@[simp] theorem State.setDT_rand (b : Byte) : (s.setDT b).rand = s.rand := rfl
@[simp] theorem State.setDT_draws (b : Byte) : (s.setDT b).draws = s.draws := rfl
@[simp] theorem State.setDT_diag (b : Byte) : (s.setDT b).diag = s.diag := rfl
@[simp] theorem State.setDT_phase (b : Byte) : (s.setDT b).phase = s.phase := rfl
@[simp] theorem State.setDT_inputs (b : Byte) : (s.setDT b).inputs = s.inputs := rfl
@[simp] theorem State.setDT_v (b : Byte) (q : Reg) : (s.setDT b).v q = s.v q := rfl
@[simp] theorem State.setDT_slot (b : Byte) (k : Fin 16) : (s.setDT b).slot k = s.slot k := rfl
@[simp] theorem State.setDT_pixel (b : Byte) (row : Fin 32) (col : Fin 64) : (s.setDT b).pixel row col = s.pixel row col := rfl
@[simp] theorem State.setDT_keyDown (b : Byte) (k : Fin 16) : (s.setDT b).keyDown k = s.keyDown k := rfl
@[simp] theorem State.setDT_byteAt (b : Byte) (e : Nat) : (s.setDT b).byteAt e = s.byteAt e := rfl
@[simp] theorem State.setDT_fetch (b : Byte) (e : Word) : (s.setDT b).fetch e = s.fetch e := rfl

/-! `setST`. -/

@[simp] theorem State.setST_V (b : Byte) : (s.setST b).V = s.V := rfl
@[simp] theorem State.setST_I (b : Byte) : (s.setST b).I = s.I := rfl
@[simp] theorem State.setST_pc (b : Byte) : (s.setST b).pc = s.pc := rfl
@[simp] theorem State.setST_stack (b : Byte) : (s.setST b).stack = s.stack := rfl
@[simp] theorem State.setST_sp (b : Byte) : (s.setST b).sp = s.sp := rfl
@[simp] theorem State.setST_DT (b : Byte) : (s.setST b).DT = s.DT := rfl
@[simp] theorem State.setST_ST (b : Byte) : (s.setST b).ST = b := rfl
@[simp] theorem State.setST_fb (b : Byte) : (s.setST b).fb = s.fb := rfl
@[simp] theorem State.setST_key (b : Byte) : (s.setST b).key = s.key := rfl
@[simp] theorem State.setST_mem (b : Byte) : (s.setST b).mem = s.mem := rfl
@[simp] theorem State.setST_fault (b : Byte) : (s.setST b).fault = s.fault := rfl
@[simp] theorem State.setST_rand (b : Byte) : (s.setST b).rand = s.rand := rfl
@[simp] theorem State.setST_draws (b : Byte) : (s.setST b).draws = s.draws := rfl
@[simp] theorem State.setST_diag (b : Byte) : (s.setST b).diag = s.diag := rfl
@[simp] theorem State.setST_phase (b : Byte) : (s.setST b).phase = s.phase := rfl
@[simp] theorem State.setST_inputs (b : Byte) : (s.setST b).inputs = s.inputs := rfl
@[simp] theorem State.setST_v (b : Byte) (q : Reg) : (s.setST b).v q = s.v q := rfl
@[simp] theorem State.setST_slot (b : Byte) (k : Fin 16) : (s.setST b).slot k = s.slot k := rfl
@[simp] theorem State.setST_pixel (b : Byte) (row : Fin 32) (col : Fin 64) : (s.setST b).pixel row col = s.pixel row col := rfl
@[simp] theorem State.setST_keyDown (b : Byte) (k : Fin 16) : (s.setST b).keyDown k = s.keyDown k := rfl
@[simp] theorem State.setST_byteAt (b : Byte) (e : Nat) : (s.setST b).byteAt e = s.byteAt e := rfl
@[simp] theorem State.setST_fetch (b : Byte) (e : Word) : (s.setST b).fetch e = s.fetch e := rfl

/-! `push`. -/

@[simp] theorem State.push_V (w : Word) (h : s.sp.val < 16) : (s.push w h).V = s.V := rfl
@[simp] theorem State.push_I (w : Word) (h : s.sp.val < 16) : (s.push w h).I = s.I := rfl
@[simp] theorem State.push_pc (w : Word) (h : s.sp.val < 16) : (s.push w h).pc = s.pc := rfl
@[simp] theorem State.push_DT (w : Word) (h : s.sp.val < 16) : (s.push w h).DT = s.DT := rfl
@[simp] theorem State.push_ST (w : Word) (h : s.sp.val < 16) : (s.push w h).ST = s.ST := rfl
@[simp] theorem State.push_fb (w : Word) (h : s.sp.val < 16) : (s.push w h).fb = s.fb := rfl
@[simp] theorem State.push_key (w : Word) (h : s.sp.val < 16) : (s.push w h).key = s.key := rfl
@[simp] theorem State.push_mem (w : Word) (h : s.sp.val < 16) : (s.push w h).mem = s.mem := rfl
@[simp] theorem State.push_fault (w : Word) (h : s.sp.val < 16) : (s.push w h).fault = s.fault := rfl
@[simp] theorem State.push_rand (w : Word) (h : s.sp.val < 16) : (s.push w h).rand = s.rand := rfl
@[simp] theorem State.push_draws (w : Word) (h : s.sp.val < 16) : (s.push w h).draws = s.draws := rfl
@[simp] theorem State.push_diag (w : Word) (h : s.sp.val < 16) : (s.push w h).diag = s.diag := rfl
@[simp] theorem State.push_phase (w : Word) (h : s.sp.val < 16) : (s.push w h).phase = s.phase := rfl
@[simp] theorem State.push_inputs (w : Word) (h : s.sp.val < 16) : (s.push w h).inputs = s.inputs := rfl
@[simp] theorem State.push_v (w : Word) (h : s.sp.val < 16) (q : Reg) : (s.push w h).v q = s.v q := rfl
@[simp] theorem State.push_pixel (w : Word) (h : s.sp.val < 16) (row : Fin 32) (col : Fin 64) : (s.push w h).pixel row col = s.pixel row col := rfl
@[simp] theorem State.push_keyDown (w : Word) (h : s.sp.val < 16) (k : Fin 16) : (s.push w h).keyDown k = s.keyDown k := rfl
@[simp] theorem State.push_byteAt (w : Word) (h : s.sp.val < 16) (e : Nat) : (s.push w h).byteAt e = s.byteAt e := rfl
@[simp] theorem State.push_fetch (w : Word) (h : s.sp.val < 16) (e : Word) : (s.push w h).fetch e = s.fetch e := rfl

/-! `pop`. -/

@[simp] theorem State.pop_V : s.pop.V = s.V := rfl
@[simp] theorem State.pop_I : s.pop.I = s.I := rfl
@[simp] theorem State.pop_pc : s.pop.pc = s.pc := rfl
@[simp] theorem State.pop_stack : s.pop.stack = s.stack := rfl
@[simp] theorem State.pop_DT : s.pop.DT = s.DT := rfl
@[simp] theorem State.pop_ST : s.pop.ST = s.ST := rfl
@[simp] theorem State.pop_fb : s.pop.fb = s.fb := rfl
@[simp] theorem State.pop_key : s.pop.key = s.key := rfl
@[simp] theorem State.pop_mem : s.pop.mem = s.mem := rfl
@[simp] theorem State.pop_fault : s.pop.fault = s.fault := rfl
@[simp] theorem State.pop_rand : s.pop.rand = s.rand := rfl
@[simp] theorem State.pop_draws : s.pop.draws = s.draws := rfl
@[simp] theorem State.pop_diag : s.pop.diag = s.diag := rfl
@[simp] theorem State.pop_phase : s.pop.phase = s.phase := rfl
@[simp] theorem State.pop_inputs : s.pop.inputs = s.inputs := rfl
@[simp] theorem State.pop_v (q : Reg) : s.pop.v q = s.v q := rfl
@[simp] theorem State.pop_slot (k : Fin 16) : s.pop.slot k = s.slot k := rfl
@[simp] theorem State.pop_pixel (row : Fin 32) (col : Fin 64) : s.pop.pixel row col = s.pixel row col := rfl
@[simp] theorem State.pop_keyDown (k : Fin 16) : s.pop.keyDown k = s.keyDown k := rfl
@[simp] theorem State.pop_byteAt (e : Nat) : s.pop.byteAt e = s.byteAt e := rfl
@[simp] theorem State.pop_fetch (e : Word) : s.pop.fetch e = s.fetch e := rfl

/-! `setPixel`. -/

@[simp] theorem State.setPixel_V (i : Fin 32) (j : Fin 64) (b : Bool) : (s.setPixel i j b).V = s.V := rfl
@[simp] theorem State.setPixel_I (i : Fin 32) (j : Fin 64) (b : Bool) : (s.setPixel i j b).I = s.I := rfl
@[simp] theorem State.setPixel_pc (i : Fin 32) (j : Fin 64) (b : Bool) : (s.setPixel i j b).pc = s.pc := rfl
@[simp] theorem State.setPixel_stack (i : Fin 32) (j : Fin 64) (b : Bool) : (s.setPixel i j b).stack = s.stack := rfl
@[simp] theorem State.setPixel_sp (i : Fin 32) (j : Fin 64) (b : Bool) : (s.setPixel i j b).sp = s.sp := rfl
@[simp] theorem State.setPixel_DT (i : Fin 32) (j : Fin 64) (b : Bool) : (s.setPixel i j b).DT = s.DT := rfl
@[simp] theorem State.setPixel_ST (i : Fin 32) (j : Fin 64) (b : Bool) : (s.setPixel i j b).ST = s.ST := rfl
@[simp] theorem State.setPixel_key (i : Fin 32) (j : Fin 64) (b : Bool) : (s.setPixel i j b).key = s.key := rfl
@[simp] theorem State.setPixel_mem (i : Fin 32) (j : Fin 64) (b : Bool) : (s.setPixel i j b).mem = s.mem := rfl
@[simp] theorem State.setPixel_fault (i : Fin 32) (j : Fin 64) (b : Bool) : (s.setPixel i j b).fault = s.fault := rfl
@[simp] theorem State.setPixel_rand (i : Fin 32) (j : Fin 64) (b : Bool) : (s.setPixel i j b).rand = s.rand := rfl
@[simp] theorem State.setPixel_draws (i : Fin 32) (j : Fin 64) (b : Bool) : (s.setPixel i j b).draws = s.draws := rfl
@[simp] theorem State.setPixel_diag (i : Fin 32) (j : Fin 64) (b : Bool) : (s.setPixel i j b).diag = s.diag := rfl
@[simp] theorem State.setPixel_phase (i : Fin 32) (j : Fin 64) (b : Bool) : (s.setPixel i j b).phase = s.phase := rfl
@[simp] theorem State.setPixel_inputs (i : Fin 32) (j : Fin 64) (b : Bool) : (s.setPixel i j b).inputs = s.inputs := rfl
@[simp] theorem State.setPixel_v (i : Fin 32) (j : Fin 64) (b : Bool) (q : Reg) : (s.setPixel i j b).v q = s.v q := rfl
@[simp] theorem State.setPixel_slot (i : Fin 32) (j : Fin 64) (b : Bool) (k : Fin 16) : (s.setPixel i j b).slot k = s.slot k := rfl
@[simp] theorem State.setPixel_keyDown (i : Fin 32) (j : Fin 64) (b : Bool) (k : Fin 16) : (s.setPixel i j b).keyDown k = s.keyDown k := rfl
@[simp] theorem State.setPixel_byteAt (i : Fin 32) (j : Fin 64) (b : Bool) (e : Nat) : (s.setPixel i j b).byteAt e = s.byteAt e := rfl
@[simp] theorem State.setPixel_fetch (i : Fin 32) (j : Fin 64) (b : Bool) (e : Word) : (s.setPixel i j b).fetch e = s.fetch e := rfl

/-! `clearPixels`. -/

@[simp] theorem State.clearPixels_V : s.clearPixels.V = s.V := rfl
@[simp] theorem State.clearPixels_I : s.clearPixels.I = s.I := rfl
@[simp] theorem State.clearPixels_pc : s.clearPixels.pc = s.pc := rfl
@[simp] theorem State.clearPixels_stack : s.clearPixels.stack = s.stack := rfl
@[simp] theorem State.clearPixels_sp : s.clearPixels.sp = s.sp := rfl
@[simp] theorem State.clearPixels_DT : s.clearPixels.DT = s.DT := rfl
@[simp] theorem State.clearPixels_ST : s.clearPixels.ST = s.ST := rfl
@[simp] theorem State.clearPixels_key : s.clearPixels.key = s.key := rfl
@[simp] theorem State.clearPixels_mem : s.clearPixels.mem = s.mem := rfl
@[simp] theorem State.clearPixels_fault : s.clearPixels.fault = s.fault := rfl
@[simp] theorem State.clearPixels_rand : s.clearPixels.rand = s.rand := rfl
@[simp] theorem State.clearPixels_draws : s.clearPixels.draws = s.draws := rfl
@[simp] theorem State.clearPixels_diag : s.clearPixels.diag = s.diag := rfl
@[simp] theorem State.clearPixels_phase : s.clearPixels.phase = s.phase := rfl
@[simp] theorem State.clearPixels_inputs : s.clearPixels.inputs = s.inputs := rfl
@[simp] theorem State.clearPixels_v (q : Reg) : s.clearPixels.v q = s.v q := rfl
@[simp] theorem State.clearPixels_slot (k : Fin 16) : s.clearPixels.slot k = s.slot k := rfl
@[simp] theorem State.clearPixels_keyDown (k : Fin 16) : s.clearPixels.keyDown k = s.keyDown k := rfl
@[simp] theorem State.clearPixels_byteAt (e : Nat) : s.clearPixels.byteAt e = s.byteAt e := rfl
@[simp] theorem State.clearPixels_fetch (e : Word) : s.clearPixels.fetch e = s.fetch e := rfl

/-! `setKey`. -/

@[simp] theorem State.setKey_V (n : Fin 16) (b : Bool) : (s.setKey n b).V = s.V := rfl
@[simp] theorem State.setKey_I (n : Fin 16) (b : Bool) : (s.setKey n b).I = s.I := rfl
@[simp] theorem State.setKey_pc (n : Fin 16) (b : Bool) : (s.setKey n b).pc = s.pc := rfl
@[simp] theorem State.setKey_stack (n : Fin 16) (b : Bool) : (s.setKey n b).stack = s.stack := rfl
@[simp] theorem State.setKey_sp (n : Fin 16) (b : Bool) : (s.setKey n b).sp = s.sp := rfl
@[simp] theorem State.setKey_DT (n : Fin 16) (b : Bool) : (s.setKey n b).DT = s.DT := rfl
@[simp] theorem State.setKey_ST (n : Fin 16) (b : Bool) : (s.setKey n b).ST = s.ST := rfl
@[simp] theorem State.setKey_fb (n : Fin 16) (b : Bool) : (s.setKey n b).fb = s.fb := rfl
@[simp] theorem State.setKey_mem (n : Fin 16) (b : Bool) : (s.setKey n b).mem = s.mem := rfl
@[simp] theorem State.setKey_fault (n : Fin 16) (b : Bool) : (s.setKey n b).fault = s.fault := rfl
@[simp] theorem State.setKey_rand (n : Fin 16) (b : Bool) : (s.setKey n b).rand = s.rand := rfl
@[simp] theorem State.setKey_draws (n : Fin 16) (b : Bool) : (s.setKey n b).draws = s.draws := rfl
@[simp] theorem State.setKey_diag (n : Fin 16) (b : Bool) : (s.setKey n b).diag = s.diag := rfl
@[simp] theorem State.setKey_phase (n : Fin 16) (b : Bool) : (s.setKey n b).phase = s.phase := rfl
@[simp] theorem State.setKey_inputs (n : Fin 16) (b : Bool) : (s.setKey n b).inputs = s.inputs := rfl
@[simp] theorem State.setKey_v (n : Fin 16) (b : Bool) (q : Reg) : (s.setKey n b).v q = s.v q := rfl
@[simp] theorem State.setKey_slot (n : Fin 16) (b : Bool) (k : Fin 16) : (s.setKey n b).slot k = s.slot k := rfl
@[simp] theorem State.setKey_pixel (n : Fin 16) (b : Bool) (row : Fin 32) (col : Fin 64) : (s.setKey n b).pixel row col = s.pixel row col := rfl
@[simp] theorem State.setKey_byteAt (n : Fin 16) (b : Bool) (e : Nat) : (s.setKey n b).byteAt e = s.byteAt e := rfl
@[simp] theorem State.setKey_fetch (n : Fin 16) (b : Bool) (e : Word) : (s.setKey n b).fetch e = s.fetch e := rfl

/-! `takeException`. -/

@[simp] theorem State.takeException_V (w : Word) (c : FaultCause) (i : Word) : (s.takeException w c i).V = s.V := rfl
@[simp] theorem State.takeException_I (w : Word) (c : FaultCause) (i : Word) : (s.takeException w c i).I = s.I := rfl
@[simp] theorem State.takeException_pc (w : Word) (c : FaultCause) (i : Word) : (s.takeException w c i).pc = w := rfl
@[simp] theorem State.takeException_stack (w : Word) (c : FaultCause) (i : Word) : (s.takeException w c i).stack = s.stack := rfl
@[simp] theorem State.takeException_sp (w : Word) (c : FaultCause) (i : Word) : (s.takeException w c i).sp = s.sp := rfl
@[simp] theorem State.takeException_DT (w : Word) (c : FaultCause) (i : Word) : (s.takeException w c i).DT = s.DT := rfl
@[simp] theorem State.takeException_ST (w : Word) (c : FaultCause) (i : Word) : (s.takeException w c i).ST = s.ST := rfl
@[simp] theorem State.takeException_fb (w : Word) (c : FaultCause) (i : Word) : (s.takeException w c i).fb = s.fb := rfl
@[simp] theorem State.takeException_key (w : Word) (c : FaultCause) (i : Word) : (s.takeException w c i).key = s.key := rfl
@[simp] theorem State.takeException_mem (w : Word) (c : FaultCause) (i : Word) : (s.takeException w c i).mem = s.mem := rfl
@[simp] theorem State.takeException_fault (w : Word) (c : FaultCause) (i : Word) : (s.takeException w c i).fault = some ⟨.outOfBounds, c, i, w⟩ := rfl
@[simp] theorem State.takeException_rand (w : Word) (c : FaultCause) (i : Word) : (s.takeException w c i).rand = s.rand := rfl
@[simp] theorem State.takeException_draws (w : Word) (c : FaultCause) (i : Word) : (s.takeException w c i).draws = s.draws := rfl
@[simp] theorem State.takeException_diag (w : Word) (c : FaultCause) (i : Word) : (s.takeException w c i).diag = s.diag := rfl
@[simp] theorem State.takeException_phase (w : Word) (c : FaultCause) (i : Word) : (s.takeException w c i).phase = s.phase := rfl
@[simp] theorem State.takeException_inputs (w : Word) (c : FaultCause) (i : Word) : (s.takeException w c i).inputs = s.inputs := rfl
@[simp] theorem State.takeException_v (w : Word) (c : FaultCause) (i : Word) (q : Reg) : (s.takeException w c i).v q = s.v q := rfl
@[simp] theorem State.takeException_slot (w : Word) (c : FaultCause) (i : Word) (k : Fin 16) : (s.takeException w c i).slot k = s.slot k := rfl
@[simp] theorem State.takeException_pixel (w : Word) (c : FaultCause) (i : Word) (row : Fin 32) (col : Fin 64) : (s.takeException w c i).pixel row col = s.pixel row col := rfl
@[simp] theorem State.takeException_keyDown (w : Word) (c : FaultCause) (i : Word) (k : Fin 16) : (s.takeException w c i).keyDown k = s.keyDown k := rfl
@[simp] theorem State.takeException_byteAt (w : Word) (c : FaultCause) (i : Word) (e : Nat) : (s.takeException w c i).byteAt e = s.byteAt e := rfl
@[simp] theorem State.takeException_fetch (w : Word) (c : FaultCause) (i : Word) (e : Word) : (s.takeException w c i).fetch e = s.fetch e := rfl

/-! `tick`. -/

@[simp] theorem State.tick_V : s.tick.V = s.V := rfl
@[simp] theorem State.tick_I : s.tick.I = s.I := rfl
@[simp] theorem State.tick_pc : s.tick.pc = s.pc := rfl
@[simp] theorem State.tick_stack : s.tick.stack = s.stack := rfl
@[simp] theorem State.tick_sp : s.tick.sp = s.sp := rfl
@[simp] theorem State.tick_DT : s.tick.DT = State.countDown s.DT := rfl
@[simp] theorem State.tick_ST : s.tick.ST = State.countDown s.ST := rfl
@[simp] theorem State.tick_fb : s.tick.fb = s.fb := rfl
@[simp] theorem State.tick_key : s.tick.key = s.key := rfl
@[simp] theorem State.tick_mem : s.tick.mem = s.mem := rfl
@[simp] theorem State.tick_fault : s.tick.fault = s.fault := rfl
@[simp] theorem State.tick_rand : s.tick.rand = s.rand := rfl
@[simp] theorem State.tick_draws : s.tick.draws = s.draws := rfl
@[simp] theorem State.tick_diag : s.tick.diag = s.diag := rfl
@[simp] theorem State.tick_phase : s.tick.phase = s.phase := rfl
@[simp] theorem State.tick_inputs : s.tick.inputs = s.inputs := rfl
@[simp] theorem State.tick_v (q : Reg) : s.tick.v q = s.v q := rfl
@[simp] theorem State.tick_slot (k : Fin 16) : s.tick.slot k = s.slot k := rfl
@[simp] theorem State.tick_pixel (row : Fin 32) (col : Fin 64) : s.tick.pixel row col = s.pixel row col := rfl
@[simp] theorem State.tick_keyDown (k : Fin 16) : s.tick.keyDown k = s.keyDown k := rfl
@[simp] theorem State.tick_byteAt (e : Nat) : s.tick.byteAt e = s.byteAt e := rfl
@[simp] theorem State.tick_fetch (e : Word) : s.tick.fetch e = s.fetch e := rfl

/-! `loadProgram`. -/

@[simp] theorem State.loadProgram_V (m : List Host.Cell) (bs : List Byte) : (s.loadProgram m bs).V = s.V := rfl
@[simp] theorem State.loadProgram_I (m : List Host.Cell) (bs : List Byte) : (s.loadProgram m bs).I = s.I := rfl
@[simp] theorem State.loadProgram_pc (m : List Host.Cell) (bs : List Byte) : (s.loadProgram m bs).pc = s.pc := rfl
@[simp] theorem State.loadProgram_stack (m : List Host.Cell) (bs : List Byte) : (s.loadProgram m bs).stack = s.stack := rfl
@[simp] theorem State.loadProgram_sp (m : List Host.Cell) (bs : List Byte) : (s.loadProgram m bs).sp = s.sp := rfl
@[simp] theorem State.loadProgram_DT (m : List Host.Cell) (bs : List Byte) : (s.loadProgram m bs).DT = s.DT := rfl
@[simp] theorem State.loadProgram_ST (m : List Host.Cell) (bs : List Byte) : (s.loadProgram m bs).ST = s.ST := rfl
@[simp] theorem State.loadProgram_fb (m : List Host.Cell) (bs : List Byte) : (s.loadProgram m bs).fb = s.fb := rfl
@[simp] theorem State.loadProgram_key (m : List Host.Cell) (bs : List Byte) : (s.loadProgram m bs).key = s.key := rfl
@[simp] theorem State.loadProgram_mem (m : List Host.Cell) (bs : List Byte) : (s.loadProgram m bs).mem = (Memory.ofCells m).writeBytes Config.loadBase bs := rfl
@[simp] theorem State.loadProgram_fault (m : List Host.Cell) (bs : List Byte) : (s.loadProgram m bs).fault = s.fault := rfl
@[simp] theorem State.loadProgram_rand (m : List Host.Cell) (bs : List Byte) : (s.loadProgram m bs).rand = s.rand := rfl
@[simp] theorem State.loadProgram_draws (m : List Host.Cell) (bs : List Byte) : (s.loadProgram m bs).draws = s.draws := rfl
@[simp] theorem State.loadProgram_diag (m : List Host.Cell) (bs : List Byte) : (s.loadProgram m bs).diag = s.diag := rfl
@[simp] theorem State.loadProgram_phase (m : List Host.Cell) (bs : List Byte) : (s.loadProgram m bs).phase = .loaded := rfl
@[simp] theorem State.loadProgram_inputs (m : List Host.Cell) (bs : List Byte) : (s.loadProgram m bs).inputs = s.inputs := rfl
@[simp] theorem State.loadProgram_v (m : List Host.Cell) (bs : List Byte) (q : Reg) : (s.loadProgram m bs).v q = s.v q := rfl
@[simp] theorem State.loadProgram_slot (m : List Host.Cell) (bs : List Byte) (k : Fin 16) : (s.loadProgram m bs).slot k = s.slot k := rfl
@[simp] theorem State.loadProgram_pixel (m : List Host.Cell) (bs : List Byte) (row : Fin 32) (col : Fin 64) : (s.loadProgram m bs).pixel row col = s.pixel row col := rfl
@[simp] theorem State.loadProgram_keyDown (m : List Host.Cell) (bs : List Byte) (k : Fin 16) : (s.loadProgram m bs).keyDown k = s.keyDown k := rfl

/-! `beginStep`. -/

@[simp] theorem State.beginStep_V : s.beginStep.V = s.V := rfl
@[simp] theorem State.beginStep_I : s.beginStep.I = s.I := rfl
@[simp] theorem State.beginStep_pc : s.beginStep.pc = s.pc := rfl
@[simp] theorem State.beginStep_stack : s.beginStep.stack = s.stack := rfl
@[simp] theorem State.beginStep_sp : s.beginStep.sp = s.sp := rfl
@[simp] theorem State.beginStep_DT : s.beginStep.DT = s.DT := rfl
@[simp] theorem State.beginStep_ST : s.beginStep.ST = s.ST := rfl
@[simp] theorem State.beginStep_fb : s.beginStep.fb = s.fb := rfl
@[simp] theorem State.beginStep_key : s.beginStep.key = s.key := rfl
@[simp] theorem State.beginStep_mem : s.beginStep.mem = s.mem := rfl
@[simp] theorem State.beginStep_fault : s.beginStep.fault = s.fault := rfl
@[simp] theorem State.beginStep_rand : s.beginStep.rand = s.rand := rfl
@[simp] theorem State.beginStep_draws : s.beginStep.draws = s.draws := rfl
@[simp] theorem State.beginStep_diag : s.beginStep.diag = false := rfl
@[simp] theorem State.beginStep_phase : s.beginStep.phase = .running := rfl
@[simp] theorem State.beginStep_inputs : s.beginStep.inputs = s.inputs := rfl
@[simp] theorem State.beginStep_v (q : Reg) : s.beginStep.v q = s.v q := rfl
@[simp] theorem State.beginStep_slot (k : Fin 16) : s.beginStep.slot k = s.slot k := rfl
@[simp] theorem State.beginStep_pixel (row : Fin 32) (col : Fin 64) : s.beginStep.pixel row col = s.pixel row col := rfl
@[simp] theorem State.beginStep_keyDown (k : Fin 16) : s.beginStep.keyDown k = s.keyDown k := rfl
@[simp] theorem State.beginStep_byteAt (e : Nat) : s.beginStep.byteAt e = s.byteAt e := rfl
@[simp] theorem State.beginStep_fetch (e : Word) : s.beginStep.fetch e = s.fetch e := rfl

/-! `drawRandom`. -/

@[simp] theorem State.drawRandom_V : s.drawRandom.V = s.V := rfl
@[simp] theorem State.drawRandom_I : s.drawRandom.I = s.I := rfl
@[simp] theorem State.drawRandom_pc : s.drawRandom.pc = s.pc := rfl
@[simp] theorem State.drawRandom_stack : s.drawRandom.stack = s.stack := rfl
@[simp] theorem State.drawRandom_sp : s.drawRandom.sp = s.sp := rfl
@[simp] theorem State.drawRandom_DT : s.drawRandom.DT = s.DT := rfl
@[simp] theorem State.drawRandom_ST : s.drawRandom.ST = s.ST := rfl
@[simp] theorem State.drawRandom_fb : s.drawRandom.fb = s.fb := rfl
@[simp] theorem State.drawRandom_key : s.drawRandom.key = s.key := rfl
@[simp] theorem State.drawRandom_mem : s.drawRandom.mem = s.mem := rfl
@[simp] theorem State.drawRandom_fault : s.drawRandom.fault = s.fault := rfl
@[simp] theorem State.drawRandom_rand : s.drawRandom.rand = Config.randomByte s.draws := rfl
@[simp] theorem State.drawRandom_draws : s.drawRandom.draws = s.draws + 1 := rfl
@[simp] theorem State.drawRandom_diag : s.drawRandom.diag = s.diag := rfl
@[simp] theorem State.drawRandom_phase : s.drawRandom.phase = s.phase := rfl
@[simp] theorem State.drawRandom_inputs : s.drawRandom.inputs = s.inputs := rfl
@[simp] theorem State.drawRandom_v (q : Reg) : s.drawRandom.v q = s.v q := rfl
@[simp] theorem State.drawRandom_slot (k : Fin 16) : s.drawRandom.slot k = s.slot k := rfl
@[simp] theorem State.drawRandom_pixel (row : Fin 32) (col : Fin 64) : s.drawRandom.pixel row col = s.pixel row col := rfl
@[simp] theorem State.drawRandom_keyDown (k : Fin 16) : s.drawRandom.keyDown k = s.keyDown k := rfl
@[simp] theorem State.drawRandom_byteAt (e : Nat) : s.drawRandom.byteAt e = s.byteAt e := rfl
@[simp] theorem State.drawRandom_fetch (e : Word) : s.drawRandom.fetch e = s.fetch e := rfl

/-! `supplyRandom`. -/

@[simp] theorem State.supplyRandom_V (b : Byte) : (s.supplyRandom b).V = s.V := rfl
@[simp] theorem State.supplyRandom_I (b : Byte) : (s.supplyRandom b).I = s.I := rfl
@[simp] theorem State.supplyRandom_pc (b : Byte) : (s.supplyRandom b).pc = s.pc := rfl
@[simp] theorem State.supplyRandom_stack (b : Byte) : (s.supplyRandom b).stack = s.stack := rfl
@[simp] theorem State.supplyRandom_sp (b : Byte) : (s.supplyRandom b).sp = s.sp := rfl
@[simp] theorem State.supplyRandom_DT (b : Byte) : (s.supplyRandom b).DT = s.DT := rfl
@[simp] theorem State.supplyRandom_ST (b : Byte) : (s.supplyRandom b).ST = s.ST := rfl
@[simp] theorem State.supplyRandom_fb (b : Byte) : (s.supplyRandom b).fb = s.fb := rfl
@[simp] theorem State.supplyRandom_key (b : Byte) : (s.supplyRandom b).key = s.key := rfl
@[simp] theorem State.supplyRandom_mem (b : Byte) : (s.supplyRandom b).mem = s.mem := rfl
@[simp] theorem State.supplyRandom_fault (b : Byte) : (s.supplyRandom b).fault = s.fault := rfl
@[simp] theorem State.supplyRandom_rand (b : Byte) : (s.supplyRandom b).rand = b := rfl
@[simp] theorem State.supplyRandom_draws (b : Byte) : (s.supplyRandom b).draws = s.draws := rfl
@[simp] theorem State.supplyRandom_diag (b : Byte) : (s.supplyRandom b).diag = s.diag := rfl
@[simp] theorem State.supplyRandom_phase (b : Byte) : (s.supplyRandom b).phase = s.phase := rfl
@[simp] theorem State.supplyRandom_inputs (b : Byte) : (s.supplyRandom b).inputs = s.inputs := rfl
@[simp] theorem State.supplyRandom_v (b : Byte) (q : Reg) : (s.supplyRandom b).v q = s.v q := rfl
@[simp] theorem State.supplyRandom_slot (b : Byte) (k : Fin 16) : (s.supplyRandom b).slot k = s.slot k := rfl
@[simp] theorem State.supplyRandom_pixel (b : Byte) (row : Fin 32) (col : Fin 64) : (s.supplyRandom b).pixel row col = s.pixel row col := rfl
@[simp] theorem State.supplyRandom_keyDown (b : Byte) (k : Fin 16) : (s.supplyRandom b).keyDown k = s.keyDown k := rfl
@[simp] theorem State.supplyRandom_byteAt (b : Byte) (e : Nat) : (s.supplyRandom b).byteAt e = s.byteAt e := rfl
@[simp] theorem State.supplyRandom_fetch (b : Byte) (e : Word) : (s.supplyRandom b).fetch e = s.fetch e := rfl

/-! `dropInput`. -/

@[simp] theorem State.dropInput_V : s.dropInput.V = s.V := rfl
@[simp] theorem State.dropInput_I : s.dropInput.I = s.I := rfl
@[simp] theorem State.dropInput_pc : s.dropInput.pc = s.pc := rfl
@[simp] theorem State.dropInput_stack : s.dropInput.stack = s.stack := rfl
@[simp] theorem State.dropInput_sp : s.dropInput.sp = s.sp := rfl
@[simp] theorem State.dropInput_DT : s.dropInput.DT = s.DT := rfl
@[simp] theorem State.dropInput_ST : s.dropInput.ST = s.ST := rfl
@[simp] theorem State.dropInput_fb : s.dropInput.fb = s.fb := rfl
@[simp] theorem State.dropInput_key : s.dropInput.key = s.key := rfl
@[simp] theorem State.dropInput_mem : s.dropInput.mem = s.mem := rfl
@[simp] theorem State.dropInput_fault : s.dropInput.fault = s.fault := rfl
@[simp] theorem State.dropInput_rand : s.dropInput.rand = s.rand := rfl
@[simp] theorem State.dropInput_draws : s.dropInput.draws = s.draws := rfl
@[simp] theorem State.dropInput_diag : s.dropInput.diag = s.diag := rfl
@[simp] theorem State.dropInput_phase : s.dropInput.phase = s.phase := rfl
@[simp] theorem State.dropInput_inputs : s.dropInput.inputs = s.inputs.tail := rfl
@[simp] theorem State.dropInput_v (q : Reg) : s.dropInput.v q = s.v q := rfl
@[simp] theorem State.dropInput_slot (k : Fin 16) : s.dropInput.slot k = s.slot k := rfl
@[simp] theorem State.dropInput_pixel (row : Fin 32) (col : Fin 64) : s.dropInput.pixel row col = s.pixel row col := rfl
@[simp] theorem State.dropInput_keyDown (k : Fin 16) : s.dropInput.keyDown k = s.keyDown k := rfl
@[simp] theorem State.dropInput_byteAt (e : Nat) : s.dropInput.byteAt e = s.byteAt e := rfl
@[simp] theorem State.dropInput_fetch (e : Word) : s.dropInput.fetch e = s.fetch e := rfl

/-! The parts an update writes. -/

@[simp] theorem State.setV_v (r : Reg) (b : Byte) (q : Reg) : (s.setV r b).v q = if q = r then b else s.v q := by
  simp only [State.v, State.setV, Vector.get_eq_getElem, Vector.getElem_set]
  grind

@[simp] theorem State.push_slot (w : Word) (h : s.sp.val < 16) (k : Fin 16) :
    (s.push w h).slot k = if k.val = s.sp.val then w else s.slot k := by
  simp only [State.slot, State.push, Vector.get_eq_getElem, Vector.getElem_set]
  grind

@[simp] theorem State.push_sp (w : Word) (h : s.sp.val < 16) : (s.push w h).sp.val = s.sp.val + 1 := rfl

@[simp] theorem State.pop_sp : s.pop.sp.val = s.sp.val - 1 := rfl

@[simp] theorem State.setPixel_pixel (i : Fin 32) (j : Fin 64) (b : Bool) (row : Fin 32) (col : Fin 64) :
    (s.setPixel i j b).pixel row col = if row = i ∧ col = j then b else s.pixel row col := by
  simp only [State.pixel, State.setPixel, Vector.get_eq_getElem, Vector.getElem_set]
  grind

@[simp] theorem State.clearPixels_pixel (row : Fin 32) (col : Fin 64) : s.clearPixels.pixel row col = false := by
  simp [State.pixel, State.clearPixels, Vector.get_eq_getElem]

@[simp] theorem State.setKey_keyDown (n : Fin 16) (b : Bool) (k : Fin 16) :
    (s.setKey n b).keyDown k = if k = n then b else s.keyDown k := by
  simp only [State.keyDown, State.setKey, Vector.get_eq_getElem, Vector.getElem_set]
  grind

/-! Operations that are another one under a name of their own. -/

@[simp] theorem State.setVF_eq (b : Byte) : s.setVF b = s.setV vf b := rfl

@[simp] theorem State.skipNext_eq : s.skipNext = s.setPc (s.pc + 2) := rfl

@[simp] theorem State.setPc_setPc (a b : Word) : (s.setPc a).setPc b = s.setPc b := rfl

@[simp] theorem State.advance_eq : s.advance = s.setPc (s.pc + 2) := rfl

@[simp] theorem State.raise_eq (c : FaultCause) (i : Word) : s.raise c i = s.takeException (s.pc - 2) c i := rfl

end Sys2Proof.Machine
end

