-- ==== Sys2Proof/Laws/Memory.lean ====
section
/-! SUPPORT. The laws of memory: a read after a write, and the canonical form, which every memory operation keeps. -/

namespace Sys2Proof.Machine

/-! Reading. -/

theorem Memory.read_dropCell_same (m : Memory) (a : Nat) : (m.dropCell a).read a = Config.memFill := by
  induction m with
  | nil => rfl
  | cons c m ih =>
    obtain ⟨k, b⟩ := c
    by_cases h : k = a
    · simpa [Memory.dropCell, h] using ih
    · have : (Memory.dropCell ((k, b) :: m) a) = (k, b) :: Memory.dropCell m a := by simp [Memory.dropCell, h]
      simp [this, Memory.read, Ne.symm h, ih]

theorem Memory.read_dropCell_other (m : Memory) {a d : Nat} (h : d ≠ a) : (m.dropCell a).read d = m.read d := by
  induction m with
  | nil => rfl
  | cons c m ih =>
    obtain ⟨k, b⟩ := c
    by_cases hk : k = a
    · have : (Memory.dropCell ((k, b) :: m) a) = Memory.dropCell m a := by simp [Memory.dropCell, hk]
      rw [this, ih]
      simp [Memory.read, hk, h]
    · have : (Memory.dropCell ((k, b) :: m) a) = (k, b) :: Memory.dropCell m a := by simp [Memory.dropCell, hk]
      simp [this, Memory.read, ih]

theorem Memory.read_putCell_other (m : Memory) {a d : Nat} (v : Byte) (h : d ≠ a) : (m.putCell a v).read d = m.read d := by
  induction m with
  | nil => simp [Memory.putCell, Memory.read, h]
  | cons c m ih =>
    obtain ⟨k, b⟩ := c
    by_cases hk : a < k <;> simp [Memory.putCell, Memory.read, hk, h, ih]

theorem Memory.read_putCell_same (m : Memory) (a : Nat) (v : Byte) (h : ∀ c ∈ m, c.1 ≠ a) : (m.putCell a v).read a = v := by
  induction m with
  | nil => simp [Memory.putCell, Memory.read]
  | cons c m ih =>
    obtain ⟨k, b⟩ := c
    have hk : k ≠ a := h (k, b) (by simp)
    have ih := ih fun c hc => h c (by simp [hc])
    by_cases hlt : a < k <;> simp [Memory.putCell, Memory.read, hlt, Ne.symm hk, ih]

theorem Memory.ne_of_mem_dropCell {m : Memory} {a : Nat} {c : Host.Cell} (h : c ∈ m.dropCell a) : c.1 ≠ a := by
  simp [Memory.dropCell] at h
  exact h.2

/-- A read after a write: the byte written at its address, what was there elsewhere (20_memory.md R38). -/
@[simp] theorem Memory.read_write (m : Memory) (a : Nat) (v : Byte) (d : Nat) :
    (m.write a v).read d = if d = a then v else m.read d := by
  by_cases hv : v = Config.memFill
  · by_cases hd : d = a
    · subst hd; simp [Memory.write, hv, Memory.read_dropCell_same]
    · simp [Memory.write, hv, hd, Memory.read_dropCell_other]
  · by_cases hd : d = a
    · subst hd
      simp [Memory.write, hv, Memory.read_putCell_same _ _ _ fun c hc => Memory.ne_of_mem_dropCell hc]
    · simp [Memory.write, hv, hd, Memory.read_putCell_other, Memory.read_dropCell_other]

theorem Memory.read_writeBytes (m : Memory) (a : Nat) (bs : List Byte) (d : Nat) :
    (m.writeBytes a bs).read d = if h : a ≤ d ∧ d - a < bs.length then bs[d - a]'h.2 else m.read d := by
  induction bs generalizing m a with
  | nil => simp [Memory.writeBytes]
  | cons b bs ih =>
    rw [Memory.writeBytes, ih]
    by_cases h1 : d = a
    · subst h1; simp
    · by_cases h2 : a + 1 ≤ d ∧ d - (a + 1) < bs.length
      · have h3 : a ≤ d ∧ d - a < (b :: bs).length := by simp; omega
        have h4 : d - a = (d - (a + 1)) + 1 := by omega
        simp [h2, h3, h4]
      · have h3 : ¬ (a ≤ d ∧ d - a < (b :: bs).length) := by simp; omega
        simp only [h2, h3, h1, dite_false, Memory.read_write, ite_false]

@[simp] theorem State.setByte_byteAt (s : State) (a : Nat) (b : Byte) (d : Nat) :
    (s.setByte a b).byteAt d = if d = a then b else s.byteAt d := Memory.read_write ..

/-! The canonical form. -/

theorem Memory.wf_iff (m : Memory) : m.wf = true ↔
    m.Pairwise (fun c d => c.1 < d.1) ∧ ∀ c ∈ m, c.1 < Config.memSize ∧ c.2 ≠ Config.memFill := by
  simp [Memory.wf, List.all_eq_true]

theorem Memory.wf_nil : Memory.wf [] = true := by decide

theorem Memory.mem_putCell {m : Memory} {a : Nat} {v : Byte} {c : Host.Cell} (h : c ∈ m.putCell a v) :
    c = (a, v) ∨ c ∈ m := by
  induction m with
  | nil => simpa [Memory.putCell] using h
  | cons e m ih =>
    obtain ⟨k, b⟩ := e
    by_cases hk : a < k
    · simpa [Memory.putCell, hk] using h
    · simp only [Memory.putCell, hk, ite_false, List.mem_cons] at h
      rcases h with h | h
      · simp [h]
      · rcases ih h with h | h <;> simp [h]

theorem Memory.sorted_putCell {m : Memory} {a : Nat} {v : Byte} (hs : m.Pairwise (fun c d => c.1 < d.1))
    (hne : ∀ c ∈ m, c.1 ≠ a) : (m.putCell a v).Pairwise (fun c d => c.1 < d.1) := by
  induction m with
  | nil => simp [Memory.putCell]
  | cons e m ih =>
    obtain ⟨k, b⟩ := e
    obtain ⟨hk, hs⟩ := List.pairwise_cons.mp hs
    by_cases hlt : a < k
    · simp only [Memory.putCell, hlt, ite_true]
      refine List.pairwise_cons.mpr ⟨fun c hc => ?_, List.pairwise_cons.mpr ⟨hk, hs⟩⟩
      rcases List.mem_cons.mp hc with rfl | hc
      · exact hlt
      · exact Nat.lt_trans hlt (hk c hc)
    · simp only [Memory.putCell, hlt, ite_false]
      have hka : k ≠ a := hne (k, b) (by simp)
      refine List.pairwise_cons.mpr ⟨fun c hc => ?_, ih hs fun c hc => hne c (by simp [hc])⟩
      rcases Memory.mem_putCell hc with rfl | hc
      · show k < a; omega
      · exact hk c hc

/-- A write inside memory keeps the canonical form. -/
theorem Memory.wf_write {m : Memory} (h : m.wf = true) {a : Nat} (ha : a < Config.memSize) (v : Byte) :
    (m.write a v).wf = true := by
  obtain ⟨hs, hall⟩ := (Memory.wf_iff m).mp h
  have hse : (m.dropCell a).Pairwise (fun c d => c.1 < d.1) := hs.sublist List.filter_sublist
  have halle : ∀ c ∈ m.dropCell a, c.1 < Config.memSize ∧ c.2 ≠ Config.memFill :=
    fun c hc => hall c (List.mem_of_mem_filter hc)
  by_cases hv : v = Config.memFill
  · simpa [Memory.write, hv] using (Memory.wf_iff _).mpr ⟨hse, halle⟩
  · simp only [Memory.write, hv, ite_false]
    refine (Memory.wf_iff _).mpr ⟨Memory.sorted_putCell hse fun c hc => Memory.ne_of_mem_dropCell hc, fun c hc => ?_⟩
    rcases Memory.mem_putCell hc with rfl | hc
    · exact ⟨ha, hv⟩
    · exact halle c hc

theorem Memory.wf_writeBytes {m : Memory} (h : m.wf = true) (a : Nat) (bs : List Byte)
    (hb : a + bs.length ≤ Config.memSize) : (m.writeBytes a bs).wf = true := by
  induction bs generalizing m a with
  | nil => exact h
  | cons b bs ih =>
    simp only [List.length_cons] at hb
    exact ih (Memory.wf_write h (by omega) b) (a + 1) (by omega)

theorem Memory.wf_ofCells (cells : List Host.Cell) : (Memory.ofCells cells).wf = true := by
  induction cells with
  | nil => exact Memory.wf_nil
  | cons c cells ih =>
    unfold Memory.ofCells at *
    simp only [List.foldr_cons]
    split
    · exact Memory.wf_write ih ‹_› c.2
    · exact ih

/-- The byte of a launch memory at a valid address is that of the first cell listed for it. -/
theorem Memory.read_ofCells (cells : List Host.Cell) {a : Nat} (ha : a < Config.memSize) :
    (Memory.ofCells cells).read a = Memory.read cells a := by
  induction cells with
  | nil => rfl
  | cons c cells ih =>
    obtain ⟨k, b⟩ := c
    unfold Memory.ofCells at *
    simp only [List.foldr_cons, Memory.read]
    by_cases hk : k < Config.memSize
    · simp [hk, ih]
    · have : a ≠ k := by omega
      simp [hk, ih, this]

/-- The reset memory is canonical. -/
theorem reset_mem_wf : State.reset.mem.wf = true := Memory.wf_nil

end Sys2Proof.Machine
end

