-- ==== Sys2Proof/Laws/Ops.lean ====
section
/-! SUPPORT. One lemma for each shared operation that says what it can do: what it leaves, as one record update, and what it
writes. -/

namespace Sys2Proof.Machine

/-! Frames. -/

theorem ChangesOnly.refl (P : Part → Prop) (s : State) : ChangesOnly P s s := by
  intro p _; cases p <;> rfl

theorem ChangesOnly.trans {P : Part → Prop} {s t u : State} (h : ChangesOnly P s t) (k : ChangesOnly P t u) :
    ChangesOnly P s u := by
  intro p hp
  have h := h p hp; have k := k p hp
  cases p <;> exact Eq.trans k h

theorem ChangesOnly.mono {P Q : Part → Prop} {s t : State} (h : ChangesOnly P s t) (hpq : ∀ p, P p → Q p) :
    ChangesOnly Q s t := fun p hp => h p fun hP => hp (hpq p hP)

theorem changesOnly_setV (s : State) (r : Reg) (b : Byte) : ChangesOnly (fun p => p = .v r) s (s.setV r b) := by
  intro p hp; cases p <;> simp_all [SameAt]

theorem changesOnly_setI (s : State) (w : Word) : ChangesOnly (fun p => p = .I) s (s.setI w) := by
  intro p hp; cases p <;> simp_all [SameAt]

theorem changesOnly_setPc (s : State) (w : Word) : ChangesOnly (fun p => p = .pc) s (s.setPc w) := by
  intro p hp; cases p <;> simp_all [SameAt]

theorem changesOnly_setByte (s : State) (a : Nat) (b : Byte) : ChangesOnly (fun p => p = .mem a) s (s.setByte a b) := by
  intro p hp; cases p <;> simp_all [SameAt]

theorem changesOnly_setPixel (s : State) (i : Fin 32) (j : Fin 64) (b : Bool) :
    ChangesOnly (fun p => p = .pixel i j) s (s.setPixel i j b) := by
  intro p hp; cases p <;> simp_all [SameAt]

theorem changesOnly_takeException (s : State) (w : Word) (c : FaultCause) (i : Word) :
    ChangesOnly (fun p => p = .pc ∨ p = .fault) s (s.takeException w c i) := by
  intro p hp; cases p <;> simp_all [SameAt]

theorem changesOnly_setV_setV (s : State) (r q : Reg) (a b : Byte) :
    ChangesOnly (fun p => p = .v r ∨ p = .v q) s ((s.setV q a).setV r b) := by
  intro p hp; cases p <;> simp_all [SameAt]

/-! Operands and flags as numbers. -/

@[simp] theorem zext16OfAddr_toNat (a : Addr12) : (zext16OfAddr a).toNat = a.toNat := by
  have := a.isLt
  simp [zext16OfAddr]; omega

@[simp] theorem zext16OfByte_toNat (b : Byte) : (zext16OfByte b).toNat = b.toNat := by
  have := b.isLt
  simp [zext16OfByte]; omega

theorem notBorrowFlag_eq (a b : Byte) : notBorrowFlag a b = if a.toNat < b.toNat then 0 else 1 := by
  by_cases h : a.toNat < b.toNat <;> simp only [notBorrowFlag, flag, ← Nat.not_lt, h] <;> rfl

/-- A countdown is subtraction that stops at 0 (60_exceptions.md R160). -/
theorem countDown_toNat (b : Byte) : (State.countDown b).toNat = b.toNat - 1 := by
  have := b.isLt
  by_cases h : b = 0
  · simp [State.countDown, h]
  · have h0 : b.toNat ≠ 0 := fun h' => h (BitVec.eq_of_toNat_eq (by simpa using h'))
    simp only [State.countDown, h, ite_false, BitVec.toNat_sub]
    simp; omega

/-! Taking an exception: what an instruction's raise answers with. -/

theorem raises_of_exec {i : Instr} {s : State} {c : FaultCause} {info : Word} (h : exec i s = .next (s.raise c info)) :
    Raises i s c info :=
  ⟨_, h, rfl, rfl, changesOnly_takeException s (s.pc - 2) c info⟩

/-! The range check of the `[I]` operand (20_memory.md R42). -/

@[simp] theorem rangeOk_iff (s : State) (len : Nat) :
    s.rangeOk len = true ↔ len = 0 ∨ s.I.toNat + len - 1 ≤ 0xFFF := by
  simp [State.rangeOk, Config.lastAddr]

/-! Skips. -/

theorem skipIf_eq (c : Bool) (s : State) : skipIf c s = s.setPc (if c then s.pc + 2 else s.pc) := by
  cases c <;> rfl

/-! Register blocks (42_index_memory.md R113, R114). -/

@[simp] theorem mem_regsUpTo (x r : Reg) : r ∈ regsUpTo x ↔ r ≤ x := by
  simp [regsUpTo]

theorem regsUpTo_nodup (x : Reg) : (regsUpTo x).Nodup := (List.nodup_finRange 16).filter _

/-- A block store changes memory alone. -/
theorem storeBlock_shape (s : State) (rs : List Reg) : ∃ m, s.storeBlock rs = { s with mem := m } := by
  induction rs generalizing s with
  | nil => exact ⟨s.mem, rfl⟩
  | cons r rs ih => obtain ⟨m, h⟩ := ih (s.setByte (s.ea r.val) (s.v r)); exact ⟨m, h⟩

/-- Every listed register's byte is at its place, and no other byte changes. -/
theorem storeBlock_byteAt (s : State) (rs : List Reg) (hn : rs.Nodup) :
    (∀ r ∈ rs, (s.storeBlock rs).byteAt (s.ea r.val) = s.v r) ∧
    (∀ a, (∀ r ∈ rs, a ≠ s.ea r.val) → (s.storeBlock rs).byteAt a = s.byteAt a) := by
  induction rs generalizing s with
  | nil => exact ⟨by simp, fun _ _ => rfl⟩
  | cons r rs ih =>
    obtain ⟨hr, hn⟩ := List.nodup_cons.mp hn
    obtain ⟨h1, h2⟩ := ih (s.setByte (s.ea r.val) (s.v r)) hn
    refine ⟨fun q hq => ?_, fun a ha => ?_⟩
    · rcases List.mem_cons.mp hq with rfl | hq
      · have := h2 (s.ea q.val) fun r' hr' => by
          have : q.val ≠ r'.val := fun h => hr (Fin.ext h ▸ hr')
          simp [State.ea]; omega
        simpa [State.storeBlock] using this
      · exact h1 q hq
    · have := h2 a fun q hq => ha q (by simp [hq])
      simpa [State.storeBlock, ha r (by simp)] using this

/-- A block store inside memory keeps the canonical form. -/
theorem storeBlock_wf (s : State) (rs : List Reg) (h : s.mem.wf = true) (hr : ∀ r ∈ rs, s.ea r.val < Config.memSize) :
    (s.storeBlock rs).mem.wf = true := by
  induction rs generalizing s with
  | nil => exact h
  | cons r rs ih =>
    exact ih (s.setByte (s.ea r.val) (s.v r)) (Memory.wf_write h (hr r (by simp)) _) fun q hq => hr q (by simp [hq])

/-- A block load changes registers alone. -/
theorem loadBlock_shape (s : State) (rs : List Reg) : ∃ V, s.loadBlock rs = { s with V := V } := by
  induction rs generalizing s with
  | nil => exact ⟨s.V, rfl⟩
  | cons r rs ih => obtain ⟨m, h⟩ := ih (s.setV r (s.byteAt (s.ea r.val))); exact ⟨m, h⟩

/-- Every listed register has its byte, and no other register changes. -/
theorem loadBlock_v (s : State) (rs : List Reg) (q : Reg) :
    (s.loadBlock rs).v q = if q ∈ rs then s.byteAt (s.ea q.val) else s.v q := by
  induction rs generalizing s with
  | nil => rfl
  | cons r rs ih =>
    rw [State.loadBlock, ih]
    by_cases h : q ∈ rs
    · simp [h, State.ea]
    · by_cases hq : q = r
      · subst hq; simp [h]
      · simp [h, hq]

/-! The draw (43_display.md R121). -/

theorem drawPixel_shape (x y : Reg) (b : Byte) (i j : Nat) (s : State) :
    ∃ V fb, drawPixel x y b i j s = { s with V := V, fb := fb } := by
  unfold drawPixel
  simp only
  split <;> exact ⟨_, _, rfl⟩

theorem drawColumns_shape (x y : Reg) (b : Byte) (i k : Nat) (s : State) :
    ∃ V fb, drawColumns x y b i k s = { s with V := V, fb := fb } := by
  induction k with
  | zero => exact ⟨_, _, rfl⟩
  | succ k ih =>
    obtain ⟨V, fb, h⟩ := ih
    obtain ⟨V', fb', h'⟩ := drawPixel_shape x y b i k (drawColumns x y b i k s)
    exact ⟨V', fb', by rw [drawColumns, h', h]⟩

/-- A draw changes registers and the framebuffer alone. -/
theorem drawRows_shape (x y : Reg) (k : Nat) (s : State) :
    ∃ V fb, drawRows x y k s = { s with V := V, fb := fb } := by
  induction k with
  | zero => exact ⟨_, _, rfl⟩
  | succ k ih =>
    obtain ⟨V, fb, h⟩ := ih
    obtain ⟨V', fb', h'⟩ :=
      drawColumns_shape x y ((drawRows x y k s).byteAt ((drawRows x y k s).ea k)) k 8 (drawRows x y k s)
    exact ⟨V', fb', by rw [drawRows, h', h]⟩

/-- One pixel of the draw: VF, every other register, and every pixel. -/
theorem drawPixel_spec (x y : Reg) (b : Byte) (i j : Nat) (s : State) :
    (drawPixel x y b i j s).v vf =
      (if spriteBit b j && s.pixel (spriteRow (s.v y) i) (spriteCol (s.v x) j) then 1 else s.v vf) ∧
    (∀ r, r ≠ vf → (drawPixel x y b i j s).v r = s.v r) ∧
    ∀ row col, (drawPixel x y b i j s).pixel row col =
      if row = spriteRow (s.v y) i ∧ col = spriteCol (s.v x) j then s.pixel row col ^^ spriteBit b j
      else s.pixel row col := by
  unfold drawPixel
  simp only
  split
  · refine ⟨by simp, fun r hr => by simp [hr], fun row col => ?_⟩
    simp only [State.setPixel_pixel, State.setVF_eq, State.setV_pixel]
    split <;> simp_all
  · refine ⟨by simp, fun r hr => by simp, fun row col => ?_⟩
    simp only [State.setPixel_pixel]
    split <;> simp_all

theorem drawColumns_v (x y : Reg) (b : Byte) (i k : Nat) (s : State) {r : Reg} (hr : r ≠ vf) :
    (drawColumns x y b i k s).v r = s.v r := by
  induction k with
  | zero => rfl
  | succ k ih => rw [drawColumns, (drawPixel_spec ..).2.1 r hr, ih]

/-- A draw leaves every register but VF. -/
theorem drawRows_v (x y : Reg) (k : Nat) (s : State) {r : Reg} (hr : r ≠ vf) : (drawRows x y k s).v r = s.v r := by
  induction k with
  | zero => rfl
  | succ k ih => rw [drawRows, drawColumns_v _ _ _ _ _ _ hr, ih]

/-- A draw changes VF and pixels alone. -/
theorem drawRows_changesOnly (x y : Reg) (k : Nat) (s : State) :
    ChangesOnly (fun p => p = .v 15 ∨ ∃ r c, p = .pixel r c) s (drawRows x y k s) := by
  intro p hp
  obtain ⟨V, fb, h⟩ := drawRows_shape x y k s
  cases p with
  | v r => exact drawRows_v x y k s fun hr => hp (Or.inl (by rw [hr]; rfl))
  | pixel r c => exact absurd (Or.inr ⟨r, c, rfl⟩) hp
  | _ => simp only [SameAt, h] <;> rfl

/-! Keys (44_keypad_timers.md R133). -/

theorem lowestKey_eq_none (s : State) : s.lowestKey = none ↔ ∀ k, s.keyDown k = false := by
  simp [State.lowestKey, List.find?_eq_none]

theorem lowestKey_eq_some (s : State) (k : Fin 16) :
    s.lowestKey = some k ↔ s.keyDown k = true ∧ ∀ j, j < k → s.keyDown j = false := by
  simp only [State.lowestKey, List.find?_eq_some_iff_getElem]
  constructor
  · rintro ⟨hk, i, hi, rfl, hj⟩
    refine ⟨hk, fun j hjk => ?_⟩
    have := hj j.val (by simpa [Fin.lt_def] using hjk)
    simpa using this
  · rintro ⟨hk, hj⟩
    refine ⟨hk, k.val, by simp, by simp, fun j hjk => ?_⟩
    simpa using hj ⟨j, by omega⟩ (by simpa [Fin.lt_def] using hjk)

@[simp] theorem keyNumber_toNat (k : Fin 16) : (keyNumber k).toNat = k.val := by
  have := k.isLt
  simp [keyNumber]; omega

end Sys2Proof.Machine
end

