-- ==== Sys2Proof/Laws/Draw.lean ====
section
/-! SUPPORT. The closed form of the draw when no coordinate register is VF (43_display.md R121, corner cases): the target
pixels of one draw are distinct, so each pixel is exclusive-ored with the one sprite bit that lands on it. -/

namespace Sys2Proof.Machine

theorem eq_spriteRow_iff (base : Byte) (row : Fin 32) {i : Nat} (hi : i < 32) :
    row = spriteRow base i ↔ rowDist base row = i := by
  have := row.isLt
  rw [Fin.ext_iff]; simp only [spriteRow, rowDist]; omega

theorem eq_spriteCol_iff (base : Byte) (col : Fin 64) {j : Nat} (hj : j < 64) :
    col = spriteCol base j ↔ colDist base col = j := by
  have := col.isLt
  rw [Fin.ext_iff]; simp only [spriteCol, colDist]; omega

/-- Columns 0 to `k - 1` of sprite row `i`: the pixels. -/
theorem drawColumns_pixel {x y : Reg} (hx : x ≠ vf) (hy : y ≠ vf) (b : Byte) {i : Nat} (hi : i < 32) {k : Nat} (hk : k ≤ 8)
    (s : State) (row : Fin 32) (col : Fin 64) :
    (drawColumns x y b i k s).pixel row col =
      (s.pixel row col ^^ (decide (rowDist (s.v y) row = i) && decide (colDist (s.v x) col < k) &&
        spriteBit b (colDist (s.v x) col))) := by
  induction k with
  | zero => simp [drawColumns]
  | succ k ih =>
    have ih := ih (by omega)
    rw [drawColumns, (drawPixel_spec ..).2.2, drawColumns_v _ _ _ _ _ _ hx, drawColumns_v _ _ _ _ _ _ hy]
    simp only [eq_spriteRow_iff _ _ hi, eq_spriteCol_iff _ _ (show k < 64 by omega), ih]
    by_cases hr : rowDist (s.v y) row = i
    · rcases Nat.lt_trichotomy (colDist (s.v x) col) k with h | h | h
      · have h1 : colDist (s.v x) col ≠ k := by omega
        have h2 : colDist (s.v x) col < k + 1 := by omega
        simp [hr, h, h1, h2]
      · simp [hr, h]
      · have h1 : colDist (s.v x) col ≠ k := by omega
        have h2 : ¬colDist (s.v x) col < k + 1 := by omega
        have h3 : ¬colDist (s.v x) col < k := by omega
        simp [hr, h1, h2, h3]
    · simp [hr]

/-- Columns 0 to `k - 1` of sprite row `i`: VF. -/
theorem drawColumns_vf {x y : Reg} (hx : x ≠ vf) (hy : y ≠ vf) (b : Byte) {i : Nat} (hi : i < 32) {k : Nat} (hk : k ≤ 8)
    (s : State) :
    ((∃ row col, s.pixel row col = true ∧ rowDist (s.v y) row = i ∧ colDist (s.v x) col < k ∧
        spriteBit b (colDist (s.v x) col) = true) → (drawColumns x y b i k s).v vf = 1) ∧
    ((∀ row col, s.pixel row col = true → rowDist (s.v y) row = i → colDist (s.v x) col < k →
        spriteBit b (colDist (s.v x) col) = false) → (drawColumns x y b i k s).v vf = s.v vf) := by
  induction k with
  | zero => exact ⟨fun ⟨_, _, _, _, h, _⟩ => absurd h (Nat.not_lt_zero _), fun _ => rfl⟩
  | succ k ih =>
    obtain ⟨ih1, ih2⟩ := ih (by omega)
    have hR := (eq_spriteRow_iff (s.v y) (spriteRow (s.v y) i) hi).mp rfl
    have hC := (eq_spriteCol_iff (s.v x) (spriteCol (s.v x) k) (show k < 64 by omega)).mp rfl
    have hp := drawColumns_pixel hx hy b hi (show k ≤ 8 by omega) s (spriteRow (s.v y) i) (spriteCol (s.v x) k)
    simp only [hR, hC, Nat.lt_irrefl, decide_false, Bool.and_false, Bool.false_and, Bool.xor_false] at hp
    rw [drawColumns, (drawPixel_spec ..).1, drawColumns_v _ _ _ _ _ _ hx, drawColumns_v _ _ _ _ _ _ hy, hp]
    constructor
    · rintro ⟨row, col, h1, h2, h3, h4⟩
      by_cases h : colDist (s.v x) col = k
      · have hrow := (eq_spriteRow_iff (s.v y) row hi).mpr h2
        have hcol := (eq_spriteCol_iff (s.v x) col (show k < 64 by omega)).mpr h
        rw [← hrow, ← hcol, h1, ← h, h4]; rfl
      · rw [ih1 ⟨row, col, h1, h2, by omega, h4⟩]; simp
    · intro h
      have h0 := h (spriteRow (s.v y) i) (spriteCol (s.v x) k)
      rw [hC] at h0
      rw [ih2 fun row col h1 h2 h3 => h row col h1 h2 (by omega)]
      by_cases hs : s.pixel (spriteRow (s.v y) i) (spriteCol (s.v x) k) = true
      · simp [h0 hs hR (by omega)]
      · simp [hs]

/-- Rows 0 to `k - 1`: the pixels. -/
theorem drawRows_pixel {x y : Reg} (hx : x ≠ vf) (hy : y ≠ vf) {k : Nat} (hk : k ≤ 32) (s : State) (row : Fin 32)
    (col : Fin 64) : (drawRows x y k s).pixel row col = (s.pixel row col ^^ spriteAt s x y k row col) := by
  induction k with
  | zero => simp [drawRows, spriteAt]
  | succ k ih =>
    have ih := ih (by omega)
    obtain ⟨V, fb, hs⟩ := drawRows_shape x y k s
    have hb : (drawRows x y k s).byteAt ((drawRows x y k s).ea k) = s.byteAt (s.ea k) := by rw [hs]; rfl
    rw [drawRows, hb, drawColumns_pixel hx hy _ (by omega) (by omega), ih, drawRows_v _ _ _ _ hx, drawRows_v _ _ _ _ hy]
    unfold spriteAt
    rcases Nat.lt_trichotomy (rowDist (s.v y) row) k with h | h | h
    · have h1 : rowDist (s.v y) row ≠ k := by omega
      have h2 : rowDist (s.v y) row < k + 1 := by omega
      simp [h, h1, h2]
    · simp [h, State.ea]
    · have h1 : rowDist (s.v y) row ≠ k := by omega
      have h2 : ¬rowDist (s.v y) row < k + 1 := by omega
      have h3 : ¬rowDist (s.v y) row < k := by omega
      simp [h1, h2, h3]

/-- Rows 0 to `k - 1`: VF. -/
theorem drawRows_vf {x y : Reg} (hx : x ≠ vf) (hy : y ≠ vf) {k : Nat} (hk : k ≤ 32) (s : State) :
    ((∃ row col, s.pixel row col = true ∧ spriteAt s x y k row col = true) → (drawRows x y k s).v vf = 1) ∧
    ((∀ row col, s.pixel row col = true → spriteAt s x y k row col = false) → (drawRows x y k s).v vf = s.v vf) := by
  induction k with
  | zero => exact ⟨fun ⟨_, _, _, h⟩ => by simp [spriteAt] at h, fun _ => rfl⟩
  | succ k ih =>
    obtain ⟨ih1, ih2⟩ := ih (by omega)
    obtain ⟨V, fb, hs⟩ := drawRows_shape x y k s
    have hb : (drawRows x y k s).byteAt ((drawRows x y k s).ea k) = s.byteAt (s.ea k) := by rw [hs]; rfl
    have hvx := drawRows_v x y k s hx
    have hvy := drawRows_v x y k s hy
    -- a pixel of sprite row k is as it was before the draw
    have hpix : ∀ row col, rowDist (s.v y) row = k → (drawRows x y k s).pixel row col = s.pixel row col := by
      intro row col h
      rw [drawRows_pixel hx hy (by omega)]
      simp [spriteAt, h]
    obtain ⟨c1, c2⟩ := drawColumns_vf hx hy (s.byteAt (s.ea k)) (show k < 32 by omega) (Nat.le_refl 8) (drawRows x y k s)
    rw [drawRows, hb]
    rw [hvx, hvy] at c1 c2
    constructor
    · rintro ⟨row, col, h1, h2⟩
      by_cases h : rowDist (s.v y) row = k
      · refine c1 ⟨row, col, (hpix row col h).trans h1, h, ?_⟩
        simpa [spriteAt, h, State.ea] using h2
      · have hk1 : (drawRows x y k s).v vf = 1 := ih1 ⟨row, col, h1, by
          have : rowDist (s.v y) row < k + 1 := by simp [spriteAt] at h2; omega
          have h3 : rowDist (s.v y) row < k := by omega
          simpa [spriteAt, h3, this] using h2⟩
        by_cases hit : ∃ row col, (drawRows x y k s).pixel row col = true ∧ rowDist (s.v y) row = k ∧
            colDist (s.v x) col < 8 ∧ spriteBit (s.byteAt (s.ea k)) (colDist (s.v x) col) = true
        · exact c1 hit
        · rw [c2, hk1]
          intro row col p1 p2 p3
          by_contra hne
          exact hit ⟨row, col, p1, p2, p3, by simpa using hne⟩
    · intro h
      rw [c2, ih2]
      · intro row col h1
        have := h row col h1
        by_cases hr : rowDist (s.v y) row < k
        · simpa [spriteAt, hr, show rowDist (s.v y) row < k + 1 by omega] using this
        · simp [spriteAt, hr]
      · intro row col h1 h2 h3
        have := h row col ((hpix row col h2) ▸ h1)
        simpa [spriteAt, h2, h3, State.ea] using this

end Sys2Proof.Machine
end

