-- ==== Sys2Proof/Laws/Exec.lean ====
section
/-! SUPPORT. What `exec` answers for each instruction, what a Step is, and what `step` does with the queue: later proofs cite
these and unfold neither the dispatch nor a meaning. -/

namespace Sys2Proof.Machine

variable (s : State)

/-! The meanings, one equation each. -/

@[simp] theorem exec_cls : exec .cls s = .next s.clearPixels := rfl

@[simp] theorem exec_ret :
    exec .ret s = if s.sp.val = 0 then .next (s.raise .stackUnderflow 0) else .next (s.pop.setPc s.top) := rfl

@[simp] theorem exec_jp (nnn : Addr12) : exec (.jp nnn) s = .next (s.setPc (zext16OfAddr nnn)) := rfl

theorem exec_call_room (nnn : Addr12) (h : s.sp.val < 16) :
    exec (.call nnn) s = .next ((s.push s.pc h).setPc (zext16OfAddr nnn)) := by
  simp only [exec, execCall, h, dite_true]

theorem exec_call_full (nnn : Addr12) (h : ¬s.sp.val < 16) :
    exec (.call nnn) s = .next (s.raise .stackOverflow 16) := by
  simp only [exec, execCall, h, dite_false]

@[simp] theorem exec_seImm (x : Reg) (kk : Byte) :
    exec (.seImm x kk) s = .next (s.setPc (if s.v x == kk then s.pc + 2 else s.pc)) := by
  simp only [exec, execSeImm, skipIf_eq]

@[simp] theorem exec_sneImm (x : Reg) (kk : Byte) :
    exec (.sneImm x kk) s = .next (s.setPc (if s.v x != kk then s.pc + 2 else s.pc)) := by
  simp only [exec, execSneImm, skipIf_eq]

@[simp] theorem exec_seReg (x y : Reg) :
    exec (.seReg x y) s = .next (s.setPc (if s.v x == s.v y then s.pc + 2 else s.pc)) := by
  simp only [exec, execSeReg, skipIf_eq]

@[simp] theorem exec_sneReg (x y : Reg) :
    exec (.sneReg x y) s = .next (s.setPc (if s.v x != s.v y then s.pc + 2 else s.pc)) := by
  simp only [exec, execSneReg, skipIf_eq]

@[simp] theorem exec_ldImm (x : Reg) (kk : Byte) : exec (.ldImm x kk) s = .next (s.setV x kk) := rfl

@[simp] theorem exec_addImm (x : Reg) (kk : Byte) : exec (.addImm x kk) s = .next (s.setV x (s.v x + kk)) := rfl

@[simp] theorem exec_ldReg (x y : Reg) : exec (.ldReg x y) s = .next (s.setV x (s.v y)) := rfl

@[simp] theorem exec_orReg (x y : Reg) : exec (.orReg x y) s = .next ((s.setV x (s.v x ||| s.v y)).setV vf 0) := rfl

@[simp] theorem exec_andReg (x y : Reg) : exec (.andReg x y) s = .next ((s.setV x (s.v x &&& s.v y)).setV vf 0) := rfl

@[simp] theorem exec_xorReg (x y : Reg) : exec (.xorReg x y) s = .next ((s.setV x (s.v x ^^^ s.v y)).setV vf 0) := rfl

@[simp] theorem exec_addReg (x y : Reg) :
    exec (.addReg x y) s = .next ((s.setV vf (carryFlag (s.v x) (s.v y))).setV x (s.v x + s.v y)) := rfl

/-- The subtraction after the flag: an operand that is VF is the flag. -/
@[simp] theorem exec_sub (x y : Reg) :
    exec (.sub x y) s = .next ((s.setV vf (notBorrowFlag (s.v x) (s.v y))).setV x
      ((if x = vf then notBorrowFlag (s.v x) (s.v y) else s.v x) -
        (if y = vf then notBorrowFlag (s.v x) (s.v y) else s.v y))) := by
  simp only [exec, execSub, State.setVF_eq, State.setV_v]

@[simp] theorem exec_subn (x y : Reg) :
    exec (.subn x y) s = .next ((s.setV vf (notBorrowFlag (s.v y) (s.v x))).setV x
      ((if y = vf then notBorrowFlag (s.v y) (s.v x) else s.v y) -
        (if x = vf then notBorrowFlag (s.v y) (s.v x) else s.v x))) := by
  simp only [exec, execSubn, State.setVF_eq, State.setV_v]

@[simp] theorem exec_shr (x : Reg) :
    exec (.shr x) s = .next ((s.setV vf (lowBitFlag (s.v x))).setV x
      ((if x = vf then lowBitFlag (s.v x) else s.v x) >>> 1)) := by
  simp only [exec, execShr, State.setVF_eq, State.setV_v]

@[simp] theorem exec_shl (x : Reg) :
    exec (.shl x) s = .next ((s.setV vf (highBitFlag (s.v x))).setV x
      ((if x = vf then highBitFlag (s.v x) else s.v x) <<< 1)) := by
  simp only [exec, execShl, State.setVF_eq, State.setV_v]

@[simp] theorem exec_ldI (nnn : Addr12) : exec (.ldI nnn) s = .next (s.setI (zext16OfAddr nnn)) := rfl

@[simp] theorem exec_jpV0 (nnn : Addr12) :
    exec (.jpV0 nnn) s = .next (s.setPc (zext16OfAddr nnn + zext16OfByte (s.v 0))) := rfl

@[simp] theorem exec_rnd (x : Reg) (kk : Byte) : exec (.rnd x kk) s = .next (s.setV x (s.rand &&& kk)) := rfl

@[simp] theorem exec_drw (x y : Reg) (n : Fin 16) :
    exec (.drw x y n) s = if s.rangeOk n.val then .next (drawRows x y n.val (s.setV vf 0))
      else .next (s.raise .dataRead s.I) := rfl

theorem exec_skp_key (x : Reg) (k : Fin 16) (h : (s.v x).toNat = k.val) :
    exec (.skp x) s = .next (s.setPc (if s.keyDown k then s.pc + 2 else s.pc)) := by
  have hk : (⟨(s.v x).toNat, h ▸ k.isLt⟩ : Fin 16) = k := Fin.ext h
  simp only [exec, execSkp, skipOnKey, h ▸ k.isLt, dite_true, hk, skipIf_eq]
  cases s.keyDown k <;> rfl

theorem exec_sknp_key (x : Reg) (k : Fin 16) (h : (s.v x).toNat = k.val) :
    exec (.sknp x) s = .next (s.setPc (if s.keyDown k then s.pc else s.pc + 2)) := by
  have hk : (⟨(s.v x).toNat, h ▸ k.isLt⟩ : Fin 16) = k := Fin.ext h
  simp only [exec, execSknp, skipOnKey, h ▸ k.isLt, dite_true, hk, skipIf_eq]
  cases s.keyDown k <;> rfl

theorem exec_skp_noKey (x : Reg) (h : ¬(s.v x).toNat < 16) :
    exec (.skp x) s = .next (s.raise .keyIndex (zext16OfByte (s.v x))) := by
  simp only [exec, execSkp, skipOnKey, h, dite_false]

theorem exec_sknp_noKey (x : Reg) (h : ¬(s.v x).toNat < 16) :
    exec (.sknp x) s = .next (s.raise .keyIndex (zext16OfByte (s.v x))) := by
  simp only [exec, execSknp, skipOnKey, h, dite_false]

@[simp] theorem exec_ldVxDT (x : Reg) : exec (.ldVxDT x) s = .next (s.setV x s.DT) := rfl

theorem exec_ldVxK_none (x : Reg) (h : s.lowestKey = none) : exec (.ldVxK x) s = .next (s.setPc (s.pc - 2)) := by
  simp only [exec, execLdVxK, h]

theorem exec_ldVxK_some (x : Reg) {k : Fin 16} (h : s.lowestKey = some k) :
    exec (.ldVxK x) s = .next (s.setV x (keyNumber k)) := by
  simp only [exec, execLdVxK, h]

@[simp] theorem exec_ldDTVx (x : Reg) : exec (.ldDTVx x) s = .next (s.setDT (s.v x)) := rfl

@[simp] theorem exec_ldSTVx (x : Reg) : exec (.ldSTVx x) s = .next (s.setST (s.v x)) := rfl

@[simp] theorem exec_addI (x : Reg) : exec (.addI x) s = .next (s.setI (s.I + zext16OfByte (s.v x))) := rfl

@[simp] theorem exec_ldB (x : Reg) :
    exec (.ldB x) s = if s.rangeOk 3 then .next (storeDigits (s.v x) s) else .next (s.raise .dataWrite s.I) := rfl

@[simp] theorem exec_storeRegs (x : Reg) :
    exec (.storeRegs x) s = if s.rangeOk (x.val + 1) then .next (s.storeBlock (regsUpTo x))
      else .next (s.raise .dataWrite s.I) := rfl

@[simp] theorem exec_loadRegs (x : Reg) :
    exec (.loadRegs x) s = if s.rangeOk (x.val + 1) then .next (s.loadBlock (regsUpTo x))
      else .next (s.raise .dataRead s.I) := rfl

@[simp] theorem exec_undef (w : Word) : exec (.undef w) s = .next { s with diag := true } := rfl

/-! What any instruction can do. -/

/-- The fields each instruction can write when it does not raise: the others it leaves. -/
def Effect (i : Instr) (s t : State) : Prop :=
  match i with
  | .cls => ∃ fb, t = { s with fb := fb }
  | .drw _ _ _ => ∃ V fb, t = { s with V := V, fb := fb }
  | .ret => ∃ sp w, t = { s with sp := sp, pc := w }
  | .call _ => ∃ st sp w, t = { s with stack := st, sp := sp, pc := w }
  | .jp _ | .jpV0 _ | .seImm _ _ | .sneImm _ _ | .seReg _ _ | .sneReg _ _ | .skp _ | .sknp _ => ∃ w, t = { s with pc := w }
  | .ldVxK _ => (∃ w, t = { s with pc := w }) ∨ ∃ V, t = { s with V := V }
  | .ldI _ | .addI _ => ∃ w, t = { s with I := w }
  | .ldB _ | .storeRegs _ => ∃ m, t = { s with mem := m }
  | .ldDTVx _ => ∃ b, t = { s with DT := b }
  | .ldSTVx _ => ∃ b, t = { s with ST := b }
  | .undef _ => t = { s with diag := true }
  | .ldImm _ _ | .addImm _ _ | .ldReg _ _ | .orReg _ _ | .andReg _ _ | .xorReg _ _ | .addReg _ _ | .sub _ _ | .shr _
  | .subn _ _ | .shl _ | .rnd _ _ | .ldVxDT _ | .loadRegs _ => ∃ V, t = { s with V := V }

/-- An instruction that completes either raises or has its effect on its own fields. -/
theorem exec_effect {i : Instr} {s t : State} (h : exec i s = .next t) :
    (∃ c info, t = s.raise c info) ∨ Effect i s t := by
  cases i with
  | call nnn =>
    by_cases hr : s.sp.val < 16
    · rw [exec_call_room s nnn hr] at h; exact .inr ⟨_, _, _, (Host.Outcome.next.inj h).symm⟩
    · rw [exec_call_full s nnn hr] at h; exact .inl ⟨_, _, (Host.Outcome.next.inj h).symm⟩
  | skp x =>
    by_cases hk : (s.v x).toNat < 16
    · rw [exec_skp_key s x ⟨_, hk⟩ rfl] at h; exact .inr ⟨_, (Host.Outcome.next.inj h).symm⟩
    · rw [exec_skp_noKey s x hk] at h; exact .inl ⟨_, _, (Host.Outcome.next.inj h).symm⟩
  | sknp x =>
    by_cases hk : (s.v x).toNat < 16
    · rw [exec_sknp_key s x ⟨_, hk⟩ rfl] at h; exact .inr ⟨_, (Host.Outcome.next.inj h).symm⟩
    · rw [exec_sknp_noKey s x hk] at h; exact .inl ⟨_, _, (Host.Outcome.next.inj h).symm⟩
  | ldVxK x =>
    cases hl : s.lowestKey with
    | none => rw [exec_ldVxK_none s x hl] at h; exact .inr (.inl ⟨_, (Host.Outcome.next.inj h).symm⟩)
    | some k => rw [exec_ldVxK_some s x hl] at h; exact .inr (.inr ⟨_, (Host.Outcome.next.inj h).symm⟩)
  | ret =>
    rw [exec_ret] at h
    split at h
    · exact .inl ⟨_, _, (Host.Outcome.next.inj h).symm⟩
    · exact .inr ⟨_, _, (Host.Outcome.next.inj h).symm⟩
  | drw x y n =>
    rw [exec_drw] at h
    split at h
    · obtain ⟨V, fb, hd⟩ := drawRows_shape x y n.val (s.setV vf 0)
      exact .inr ⟨V, fb, (Host.Outcome.next.inj h).symm.trans hd⟩
    · exact .inl ⟨_, _, (Host.Outcome.next.inj h).symm⟩
  | ldB x =>
    rw [exec_ldB] at h
    split at h
    · exact .inr ⟨_, (Host.Outcome.next.inj h).symm⟩
    · exact .inl ⟨_, _, (Host.Outcome.next.inj h).symm⟩
  | storeRegs x =>
    rw [exec_storeRegs] at h
    split at h
    · obtain ⟨m, hm⟩ := storeBlock_shape s (regsUpTo x)
      exact .inr ⟨m, (Host.Outcome.next.inj h).symm.trans hm⟩
    · exact .inl ⟨_, _, (Host.Outcome.next.inj h).symm⟩
  | loadRegs x =>
    rw [exec_loadRegs] at h
    split at h
    · obtain ⟨V, hV⟩ := loadBlock_shape s (regsUpTo x)
      exact .inr ⟨V, (Host.Outcome.next.inj h).symm.trans hV⟩
    · exact .inl ⟨_, _, (Host.Outcome.next.inj h).symm⟩
  | seImm x kk => exact .inr ⟨_, (Host.Outcome.next.inj (exec_seImm s x kk ▸ h)).symm⟩
  | sneImm x kk => exact .inr ⟨_, (Host.Outcome.next.inj (exec_sneImm s x kk ▸ h)).symm⟩
  | seReg x y => exact .inr ⟨_, (Host.Outcome.next.inj (exec_seReg s x y ▸ h)).symm⟩
  | sneReg x y => exact .inr ⟨_, (Host.Outcome.next.inj (exec_sneReg s x y ▸ h)).symm⟩
  | undef w => exact .inr (Host.Outcome.next.inj h).symm
  | cls | jp _ | jpV0 _ | ldI _ | addI _ | ldDTVx _ | ldSTVx _ | ldImm _ _ | addImm _ _ | ldReg _ _ | orReg _ _ | andReg _ _
  | xorReg _ _ | addReg _ _ | sub _ _ | shr _ | subn _ _ | shl _ | rnd _ _ | ldVxDT _ =>
    exact .inr ⟨_, (Host.Outcome.next.inj h).symm⟩

/-- No instruction touches the queue. -/
theorem exec_inputs {i : Instr} {s t : State} (h : exec i s = .next t) : t.inputs = s.inputs := by
  obtain ⟨_, _, rfl⟩ | he := exec_effect h
  · rfl
  · cases i <;> simp only [Effect] at he <;>
      first
        | rcases he with ⟨_, rfl⟩ | ⟨_, rfl⟩ <;> rfl
        | obtain ⟨_, rfl⟩ := he; rfl
        | obtain ⟨_, _, rfl⟩ := he; rfl
        | obtain ⟨_, _, _, rfl⟩ := he; rfl

/-- No instruction but CALL and RET changes the stack. -/
theorem exec_keeps_stack {i : Instr} {s t : State} (h : exec i s = .next t) (hc : ∀ n, i ≠ .call n) (hr : i ≠ .ret) :
    t.sp = s.sp ∧ ∀ k, t.slot k = s.slot k := by
  obtain ⟨_, _, rfl⟩ | he := exec_effect h
  · exact ⟨rfl, fun _ => rfl⟩
  · cases i <;> simp only [Effect] at he <;>
      first
        | exact absurd rfl hr
        | exact absurd rfl (hc _)
        | rcases he with ⟨_, rfl⟩ | ⟨_, rfl⟩ <;> exact ⟨rfl, fun _ => rfl⟩
        | obtain ⟨_, rfl⟩ := he; exact ⟨rfl, fun _ => rfl⟩
        | obtain ⟨_, _, rfl⟩ := he; exact ⟨rfl, fun _ => rfl⟩

/-- Instructions executed one after another: the second list begins where the first ends. -/
theorem execAll_append (is js : List Instr) {s t : State} (h : execAll is s = .next t) :
    execAll (is ++ js) s = execAll js t := by
  induction is generalizing s with
  | nil => cases h; rfl
  | cons i is ih =>
    simp only [List.cons_append, execAll] at *
    split at h
    · exact ih h
    · cases h
    · cases h

/-! A Step, and the queue. -/

variable {s}

theorem fetch_eq_none_iff (a : Word) : s.fetch a = none ↔ 0xFFE < a.toNat := by
  simp [State.fetch]

theorem fetch_of_le {a : Word} (h : a.toNat ≤ 0xFFE) :
    s.fetch a = some (joinBytes (s.byteAt a.toNat) (s.byteAt (a.toNat + 1))) := by
  simp [State.fetch, Nat.not_lt.mpr h]

theorem stepInstruction_halted {f : FaultRecord} (h : s.fault = some f) : stepInstruction s = .fault (.halted f) := by
  simp only [stepInstruction, h]

theorem stepInstruction_noFetch (h : s.fault = none) (hw : s.fetch s.pc = none) :
    stepInstruction s = .next (s.beginStep.takeException s.pc .fetch s.pc) := by
  simp only [stepInstruction, h, hw]

theorem stepInstruction_run {w : Word} (h : s.fault = none) (hw : s.fetch s.pc = some w) :
    stepInstruction s = exec (decodeWord w) s.beginStep.advance := by
  simp only [stepInstruction, h, hw]

/-- What a Step can do: it raises FETCH, or it is one instruction. -/
theorem stepInstruction_cases {t : State} (h : stepInstruction s = .next t) :
    s.fault = none ∧
    ((s.fetch s.pc = none ∧ t = s.beginStep.takeException s.pc .fetch s.pc) ∨
     ∃ w, s.fetch s.pc = some w ∧ exec (decodeWord w) s.beginStep.advance = .next t) := by
  cases hf : s.fault with
  | some f => rw [stepInstruction_halted hf] at h; cases h
  | none =>
    refine ⟨rfl, ?_⟩
    cases hw : s.fetch s.pc with
    | none => rw [stepInstruction_noFetch hf hw] at h; exact .inl ⟨rfl, (Host.Outcome.next.inj h).symm⟩
    | some w => exact .inr ⟨w, rfl, stepInstruction_run hf hw ▸ h⟩

theorem step_empty (h : s.inputs = []) : step s = stepInstruction s.drawRandom := by
  simp only [step, nextEvent, h]

theorem step_queued {e : HostEvent} {rest : List HostEvent} (h : s.inputs = e :: rest) : step s = fire e s.dropInput := by
  simp only [step, nextEvent, h]

/-- When the next event is a Step, `step` is that Step, with the random byte supplied. -/
theorem step_of_nextIsStep (h : NextIsStep s) :
    ∃ u, step s = stepInstruction u ∧ (u = s.drawRandom ∨ ∃ r, u = s.dropInput.supplyRandom r) := by
  obtain h | ⟨r, rest, h⟩ := h
  · exact ⟨_, step_empty h, .inl rfl⟩
  · exact ⟨_, step_queued h, .inr ⟨r, rfl⟩⟩

/-- What a step can do: one event, each with its effect. -/
theorem step_cases {t : State} (h : step s = .next t) :
    (stepInstruction s.drawRandom = .next t) ∨ (∃ r, stepInstruction (s.dropInput.supplyRandom r) = .next t) ∨
    t = s.dropInput.resetEvent ∨ (∃ m image, image.length ≤ 3584 ∧ s.phase = .awaitingLoad ∧ t = s.dropInput.loadProgram m image) ∨
    (s.fault = none ∧ t = s.dropInput.tick) ∨ (∃ k b, t = s.dropInput.setKey k b) ∨ t = s.dropInput := by
  cases hi : s.inputs with
  | nil => exact .inl (step_empty hi ▸ h)
  | cons e rest =>
    rw [step_queued hi] at h
    cases e with
    | reset => exact .inr (.inr (.inl (Host.Outcome.next.inj h).symm))
    | load m image =>
      simp only [fire, loadEvent] at h
      split at h
      · cases h
      · split at h
        · exact .inr (.inr (.inr (.inl ⟨m, image, Nat.not_lt.mp ‹_›, ‹_›, (Host.Outcome.next.inj h).symm⟩)))
        · cases h
    | step r => exact .inr (.inl ⟨r, h⟩)
    | tick =>
      simp only [fire, tickEvent] at h
      split at h
      · cases h
      · exact .inr (.inr (.inr (.inr (.inl ⟨‹_›, (Host.Outcome.next.inj h).symm⟩))))
    | keySet k b => exact .inr (.inr (.inr (.inr (.inr (.inl ⟨k, b, (Host.Outcome.next.inj h).symm⟩)))))
    | observe => exact .inr (.inr (.inr (.inr (.inr (.inr (Host.Outcome.next.inj h).symm)))))

end Sys2Proof.Machine
end

