-- ==== Sys2Proof/Laws/PerInstr.lean ====
section
/-! SUPPORT. Statements about every instruction as syntax, one lemma per constructor of Instr. -/

namespace Sys2Proof.Laws.RoundTrip

/-- Decoding the word of a well-formed instruction gives the instruction back, every operand included. -/
def Statement (i : Instr) : Prop := WellFormed i = true → decodeWord (encodeWord i) = i

theorem cls : Statement .cls := fun _ => by decide

theorem ret : Statement .ret := fun _ => by decide

theorem jp (nnn : Addr12) : Statement (.jp nnn) := fun _ => by
  simp [encodeWord, decodeWord, opClass_wordNNN, decodeInClass, fieldNNN_wordNNN]

theorem call (nnn : Addr12) : Statement (.call nnn) := fun _ => by
  simp [encodeWord, decodeWord, opClass_wordNNN, decodeInClass, fieldNNN_wordNNN]

theorem seImm (x : Reg) (kk : Byte) : Statement (.seImm x kk) := fun _ => by
  simp [encodeWord, decodeWord, opClass_wordXKK, decodeInClass, fieldX_wordXKK, fieldKK_wordXKK]

theorem sneImm (x : Reg) (kk : Byte) : Statement (.sneImm x kk) := fun _ => by
  simp [encodeWord, decodeWord, opClass_wordXKK, decodeInClass, fieldX_wordXKK, fieldKK_wordXKK]

theorem seReg (x : Reg) (y : Reg) : Statement (.seReg x y) := fun _ => by
  simp [encodeWord, decodeWord, opClass_wordXYN, decodeInClass, fieldX_wordXYN, fieldY_wordXYN]

theorem ldImm (x : Reg) (kk : Byte) : Statement (.ldImm x kk) := fun _ => by
  simp [encodeWord, decodeWord, opClass_wordXKK, decodeInClass, fieldX_wordXKK, fieldKK_wordXKK]

theorem addImm (x : Reg) (kk : Byte) : Statement (.addImm x kk) := fun _ => by
  simp [encodeWord, decodeWord, opClass_wordXKK, decodeInClass, fieldX_wordXKK, fieldKK_wordXKK]

theorem ldReg (x : Reg) (y : Reg) : Statement (.ldReg x y) := fun _ => by
  simp [encodeWord, decodeWord, opClass_wordXYN, decodeInClass, decodeClass8, fieldX_wordXYN, fieldY_wordXYN, fieldN_wordXYN]

theorem orReg (x : Reg) (y : Reg) : Statement (.orReg x y) := fun _ => by
  simp [encodeWord, decodeWord, opClass_wordXYN, decodeInClass, decodeClass8, fieldX_wordXYN, fieldY_wordXYN, fieldN_wordXYN]

theorem andReg (x : Reg) (y : Reg) : Statement (.andReg x y) := fun _ => by
  simp [encodeWord, decodeWord, opClass_wordXYN, decodeInClass, decodeClass8, fieldX_wordXYN, fieldY_wordXYN, fieldN_wordXYN]

theorem xorReg (x : Reg) (y : Reg) : Statement (.xorReg x y) := fun _ => by
  simp [encodeWord, decodeWord, opClass_wordXYN, decodeInClass, decodeClass8, fieldX_wordXYN, fieldY_wordXYN, fieldN_wordXYN]

theorem addReg (x : Reg) (y : Reg) : Statement (.addReg x y) := fun _ => by
  simp [encodeWord, decodeWord, opClass_wordXYN, decodeInClass, decodeClass8, fieldX_wordXYN, fieldY_wordXYN, fieldN_wordXYN]

theorem sub (x : Reg) (y : Reg) : Statement (.sub x y) := fun _ => by
  simp [encodeWord, decodeWord, opClass_wordXYN, decodeInClass, decodeClass8, fieldX_wordXYN, fieldY_wordXYN, fieldN_wordXYN]

theorem shr (x : Reg) : Statement (.shr x) := fun _ => by
  simp [encodeWord, decodeWord, opClass_wordXYN, decodeInClass, decodeClass8, fieldX_wordXYN, fieldN_wordXYN]

theorem subn (x : Reg) (y : Reg) : Statement (.subn x y) := fun _ => by
  simp [encodeWord, decodeWord, opClass_wordXYN, decodeInClass, decodeClass8, fieldX_wordXYN, fieldY_wordXYN, fieldN_wordXYN]

theorem shl (x : Reg) : Statement (.shl x) := fun _ => by
  simp [encodeWord, decodeWord, opClass_wordXYN, decodeInClass, decodeClass8, fieldX_wordXYN, fieldN_wordXYN]

theorem sneReg (x : Reg) (y : Reg) : Statement (.sneReg x y) := fun _ => by
  simp [encodeWord, decodeWord, opClass_wordXYN, decodeInClass, fieldX_wordXYN, fieldY_wordXYN]

theorem ldI (nnn : Addr12) : Statement (.ldI nnn) := fun _ => by
  simp [encodeWord, decodeWord, opClass_wordNNN, decodeInClass, fieldNNN_wordNNN]

theorem jpV0 (nnn : Addr12) : Statement (.jpV0 nnn) := fun _ => by
  simp [encodeWord, decodeWord, opClass_wordNNN, decodeInClass, fieldNNN_wordNNN]

theorem rnd (x : Reg) (kk : Byte) : Statement (.rnd x kk) := fun _ => by
  simp [encodeWord, decodeWord, opClass_wordXKK, decodeInClass, fieldX_wordXKK, fieldKK_wordXKK]

theorem drw (x : Reg) (y : Reg) (n : Fin 16) : Statement (.drw x y n) := fun _ => by
  simp [encodeWord, decodeWord, opClass_wordXYN, decodeInClass, fieldX_wordXYN, fieldY_wordXYN, fieldN_wordXYN]

theorem skp (x : Reg) : Statement (.skp x) := fun _ => by
  simp [encodeWord, decodeWord, opClass_wordXKK, decodeInClass, decodeClassE, fieldX_wordXKK, fieldKK_wordXKK]

theorem sknp (x : Reg) : Statement (.sknp x) := fun _ => by
  simp [encodeWord, decodeWord, opClass_wordXKK, decodeInClass, decodeClassE, fieldX_wordXKK, fieldKK_wordXKK]

theorem ldVxDT (x : Reg) : Statement (.ldVxDT x) := fun _ => by
  simp [encodeWord, decodeWord, opClass_wordXKK, decodeInClass, decodeClassF, fieldX_wordXKK, fieldKK_wordXKK]

theorem ldVxK (x : Reg) : Statement (.ldVxK x) := fun _ => by
  simp [encodeWord, decodeWord, opClass_wordXKK, decodeInClass, decodeClassF, fieldX_wordXKK, fieldKK_wordXKK]

theorem ldDTVx (x : Reg) : Statement (.ldDTVx x) := fun _ => by
  simp [encodeWord, decodeWord, opClass_wordXKK, decodeInClass, decodeClassF, fieldX_wordXKK, fieldKK_wordXKK]

theorem ldSTVx (x : Reg) : Statement (.ldSTVx x) := fun _ => by
  simp [encodeWord, decodeWord, opClass_wordXKK, decodeInClass, decodeClassF, fieldX_wordXKK, fieldKK_wordXKK]

theorem addI (x : Reg) : Statement (.addI x) := fun _ => by
  simp [encodeWord, decodeWord, opClass_wordXKK, decodeInClass, decodeClassF, fieldX_wordXKK, fieldKK_wordXKK]

theorem ldB (x : Reg) : Statement (.ldB x) := fun _ => by
  simp [encodeWord, decodeWord, opClass_wordXKK, decodeInClass, decodeClassF, fieldX_wordXKK, fieldKK_wordXKK]

theorem storeRegs (x : Reg) : Statement (.storeRegs x) := fun _ => by
  simp [encodeWord, decodeWord, opClass_wordXKK, decodeInClass, decodeClassF, fieldX_wordXKK, fieldKK_wordXKK]

theorem loadRegs (x : Reg) : Statement (.loadRegs x) := fun _ => by
  simp [encodeWord, decodeWord, opClass_wordXKK, decodeInClass, decodeClassF, fieldX_wordXKK, fieldKK_wordXKK]

theorem undef (w : Word) : Statement (.undef w) := fun h => decodeWord_of_unrecognised h

end Sys2Proof.Laws.RoundTrip
end

