-- ==== Sys2Proof/Tests/Slice0.lean ====
section
/-! SUPPORT. Tests. The expected values are those of spec/95_test_vectors.md (T<n>, in the comment of each test) and the
encodings of 30_encoding.md R55; a witness shows that the hypotheses of an obligation can be met, at the ends of their
ranges. -/

-- One theorem after another: checked all at once they ask for more threads than the memory limit allows.
set_option Elab.async false

namespace Sys2Proof.Tests

open Sys2Proof.Machine

/-! Small states, and what is asked of them. -/

/-- A next state, and what it satisfies. -/
def answers (r : Result) (Q : State → Bool) : Bool :=
  match r with
  | .next t => Q t
  | .fault _ => false
  | .refused _ => false

theorem exists_of_answers {r : Result} {Q : State → Bool} (h : answers r Q = true) : ∃ t, r = .next t ∧ Q t = true := by
  cases r with
  | next t => exact ⟨t, rfl, h⟩
  | fault _ => cases h
  | refused _ => cases h

/-- The reset state with registers set. -/
def withRegs (l : List (Reg × Byte)) : State := l.foldl (fun s p => s.setV p.1 p.2) State.reset

/-- Bytes put in memory. -/
def putBytes (s : State) (a : Nat) (bs : List Byte) : State := { s with mem := s.mem.writeBytes a bs }

/-- Pixels lit. -/
def lit (s : State) (l : List (Fin 32 × Fin 64)) : State := l.foldl (fun s p => s.setPixel p.1 p.2 true) s

/-- Exactly these pixels are lit. -/
def litIs (s : State) (l : List (Fin 32 × Fin 64)) : Bool := decide (s.fb = (lit State.reset l).fb)

/-- Keys pressed. -/
def press (s : State) (l : List (Fin 16)) : State := l.foldl (fun s k => s.setKey k true) s

/-- One Step with random byte 0 of the word, placed at `pc`. -/
def ran (w : Word) (s : State) : Result := step { s.withFetchWord 16 w.toNat with inputs := [.step 0] }

/-- The record that `OutOfBounds` latches. -/
def oob (c : FaultCause) (info pc0 : Word) : Option FaultRecord := some ⟨.outOfBounds, c, info, pc0⟩

/-! WellFormed: its one check refuses an `undef` whose word is an instruction. -/

theorem test_wf_undef_of_cls : WellFormed (.undef 0x00E0) = false := by decide

theorem test_wf_undef_of_add : WellFormed (.undef 0x8124) = false := by decide

theorem test_wf_undef_of_none : WellFormed (.undef 0x8128) = true := by decide

/-! Decoding: each row's word, written out in bits (class, x, y, n or nnn or kk). -/

theorem test_decode_cls : decode [0b00000000, 0b11100000] = .ok (.cls, []) := by decide

theorem test_decode_ret : decode [0b00000000, 0b11101110] = .ok (.ret, []) := by decide

theorem test_decode_jp : decode [0b00011010, 0b10111100] = .ok (.jp 0xABC, []) := by decide

theorem test_decode_call : decode [0b00101010, 0b10111100] = .ok (.call 0xABC, []) := by decide

theorem test_decode_seImm : decode [0b00110001, 0b01000010] = .ok (.seImm 1 0x42, []) := by decide

theorem test_decode_sneImm : decode [0b01000001, 0b01000010] = .ok (.sneImm 1 0x42, []) := by decide

theorem test_decode_seReg : decode [0b01010001, 0b00100000] = .ok (.seReg 1 2, []) := by decide

theorem test_decode_ldImm : decode [0b01100001, 0b10101011] = .ok (.ldImm 1 0xAB, []) := by decide

theorem test_decode_addImm : decode [0b01110001, 0b00000101] = .ok (.addImm 1 0x05, []) := by decide

theorem test_decode_ldReg : decode [0b10000001, 0b00100000] = .ok (.ldReg 1 2, []) := by decide

theorem test_decode_orReg : decode [0b10000001, 0b00100001] = .ok (.orReg 1 2, []) := by decide

theorem test_decode_andReg : decode [0b10000001, 0b00100010] = .ok (.andReg 1 2, []) := by decide

theorem test_decode_xorReg : decode [0b10000001, 0b00100011] = .ok (.xorReg 1 2, []) := by decide

theorem test_decode_addReg : decode [0b10000001, 0b00100100] = .ok (.addReg 1 2, []) := by decide

theorem test_decode_sub : decode [0b10000001, 0b00100101] = .ok (.sub 1 2, []) := by decide

theorem test_decode_shr : decode [0b10000001, 0b00100110] = .ok (.shr 1, []) := by decide

theorem test_decode_subn : decode [0b10000001, 0b00100111] = .ok (.subn 1 2, []) := by decide

theorem test_decode_shl : decode [0b10000001, 0b00101110] = .ok (.shl 1, []) := by decide

theorem test_decode_sneReg : decode [0b10010001, 0b00100000] = .ok (.sneReg 1 2, []) := by decide

theorem test_decode_ldI : decode [0b10100001, 0b00100011] = .ok (.ldI 0x123, []) := by decide

theorem test_decode_jpV0 : decode [0b10110011, 0b00000000] = .ok (.jpV0 0x300, []) := by decide

theorem test_decode_rnd : decode [0b11000001, 0b00001111] = .ok (.rnd 1 0x0F, []) := by decide

theorem test_decode_drw : decode [0b11010001, 0b00101111] = .ok (.drw 1 2 15, []) := by decide

theorem test_decode_skp : decode [0b11100001, 0b10011110] = .ok (.skp 1, []) := by decide

theorem test_decode_sknp : decode [0b11100001, 0b10100001] = .ok (.sknp 1, []) := by decide

theorem test_decode_ldVxDT : decode [0b11110001, 0b00000111] = .ok (.ldVxDT 1, []) := by decide

theorem test_decode_ldVxK : decode [0b11110001, 0b00001010] = .ok (.ldVxK 1, []) := by decide

theorem test_decode_ldDTVx : decode [0b11110001, 0b00010101] = .ok (.ldDTVx 1, []) := by decide

theorem test_decode_ldSTVx : decode [0b11110001, 0b00011000] = .ok (.ldSTVx 1, []) := by decide

theorem test_decode_addI : decode [0b11110001, 0b00011110] = .ok (.addI 1, []) := by decide

theorem test_decode_ldB : decode [0b11110001, 0b00110011] = .ok (.ldB 1, []) := by decide

theorem test_decode_storeRegs : decode [0b11110010, 0b01010101] = .ok (.storeRegs 2, []) := by decide

theorem test_decode_loadRegs : decode [0b11110010, 0b01100101] = .ok (.loadRegs 2, []) := by decide

theorem test_decode_undef : decode [0b10000001, 0b00101000] = .ok (.undef 0x8128, []) := by decide

/-- A lone byte, or none, is no instruction. -/
theorem test_decode_truncated : decode [0x12] = .error .truncated ∧ decode [] = .error .truncated := by decide

/-! One Step of each instruction. -/

/-- T119 -/
theorem test_cls : answers (ran 0x00E0 (lit (withRegs [(15, 0x01)]) [(0, 0), (31, 63)])) (fun t => litIs t [] && t.v 15 == 1) = true := by decide +kernel

/-- T121 -/
theorem test_cls_noncanonical : answers (ran 0x0230 (lit State.reset [(3, 3)])) (fun t => litIs t [] && t.pc == 0x0202) = true := by decide +kernel

/-- T8 -/
theorem test_ret : answers (ran 0x00EE { State.reset with sp := 1, stack := State.reset.stack.set 0 0x0345 }) (fun t => t.pc == 0x0345 && t.sp == 0 && t.slot 0 == 0x0345) = true := by decide +kernel

/-- T9 -/
theorem test_ret_empty : answers (ran 0x00EE State.reset) (fun t => t.pc == 0x0200 && t.fault == oob .stackUnderflow 0 0x0200) = true := by decide +kernel

/-- T2 -/
theorem test_jp : answers (ran 0x1FFF State.reset) (fun t => t.pc == 0x0FFF) = true := by decide +kernel

/-- T5 -/
theorem test_call_sixteenth : answers (ran 0x2ABC { State.reset with sp := 15 }) (fun t => t.pc == 0x0ABC && t.sp == 16 && t.slot 15 == 0x0202) = true := by decide +kernel

/-- T6 -/
theorem test_call_seventeenth : answers (ran 0x2ABC { State.reset with sp := 16 }) (fun t => t.pc == 0x0200 && t.fault == oob .stackOverflow 0x10 0x0200) = true := by decide +kernel

/-- T12 -/
theorem test_seImm : answers (ran 0x3142 (withRegs [(1, 0x42)])) (fun t => t.pc == 0x0204) = true := by decide +kernel

/-- T30 -/
theorem test_seImm_not : answers (ran 0x3101 { State.reset with pc := 0x0FFE }) (fun t => t.pc == 0x1000) = true := by decide +kernel

/-- T14 -/
theorem test_sneImm : answers (ran 0x4142 (withRegs [(1, 0x42)])) (fun t => t.pc == 0x0202) = true := by decide +kernel

/-- T15 -/
theorem test_sneImm_not : answers (ran 0x4142 (withRegs [(1, 0x43)])) (fun t => t.pc == 0x0204) = true := by decide +kernel

/-- T20 -/
theorem test_seReg : answers (ran 0x512F (withRegs [(1, 0x07), (2, 0x07)])) (fun t => t.pc == 0x0204) = true := by decide +kernel

/-- T18 -/
theorem test_seReg_not : answers (ran 0x5120 (withRegs [(1, 0x07), (2, 0x08)])) (fun t => t.pc == 0x0202) = true := by decide +kernel

/-- T21 -/
theorem test_sneReg : answers (ran 0x9120 (withRegs [(1, 0x07), (2, 0x07)])) (fun t => t.pc == 0x0202) = true := by decide +kernel

/-- T24 -/
theorem test_sneReg_not : answers (ran 0x9125 (withRegs [(1, 0x07), (2, 0x08)])) (fun t => t.pc == 0x0204) = true := by decide +kernel

/-- T36 -/
theorem test_ldImm : answers (ran 0x6F07 State.reset) (fun t => t.v 15 == 0x07 && t.pc == 0x0202) = true := by decide +kernel

/-- T37 -/
theorem test_addImm : answers (ran 0x7105 (withRegs [(1, 0xFE), (15, 0x07)])) (fun t => t.v 1 == 0x03 && t.v 15 == 0x07) = true := by decide +kernel

/-- T40 -/
theorem test_ldReg : answers (ran 0x8120 (withRegs [(1, 0x11), (2, 0x22), (15, 0x07)])) (fun t => t.v 1 == 0x22 && t.v 15 == 0x07) = true := by decide +kernel

/-- T44 -/
theorem test_orReg : answers (ran 0x81F1 (withRegs [(1, 0x30), (15, 0x0C)])) (fun t => t.v 1 == 0x3C && t.v 15 == 0x00) = true := by decide +kernel

/-- T45 -/
theorem test_orReg_vf : answers (ran 0x8F11 (withRegs [(15, 0x0C), (1, 0x03)])) (fun t => t.v 15 == 0x00) = true := by decide +kernel

/-- T46 -/
theorem test_andReg : answers (ran 0x8122 (withRegs [(1, 0xF3), (2, 0x3F), (15, 0x55)])) (fun t => t.v 1 == 0x33 && t.v 15 == 0x00) = true := by decide +kernel

/-- T48 -/
theorem test_andReg_vf : answers (ran 0x8F12 (withRegs [(15, 0xFF), (1, 0xFF)])) (fun t => t.v 15 == 0x00) = true := by decide +kernel

/-- T49 -/
theorem test_xorReg : answers (ran 0x8123 (withRegs [(1, 0xFF), (2, 0x0F), (15, 0x55)])) (fun t => t.v 1 == 0xF0 && t.v 15 == 0x00) = true := by decide +kernel

/-- T51 -/
theorem test_xorReg_vf : answers (ran 0x81F3 (withRegs [(1, 0x3C), (15, 0x0F)])) (fun t => t.v 1 == 0x33 && t.v 15 == 0x00) = true := by decide +kernel

/-- T54 -/
theorem test_addReg_carry : answers (ran 0x8124 (withRegs [(1, 0x80), (2, 0x80)])) (fun t => t.v 1 == 0x00 && t.v 15 == 0x01) = true := by decide +kernel

/-- T57 -/
theorem test_addReg_vf : answers (ran 0x8F14 (withRegs [(15, 0xF0), (1, 0x20)])) (fun t => t.v 15 == 0x10) = true := by decide +kernel

/-- T61 -/
theorem test_sub_equal : answers (ran 0x8125 (withRegs [(1, 0x10), (2, 0x10)])) (fun t => t.v 1 == 0x00 && t.v 15 == 0x01) = true := by decide +kernel

/-- T65 -/
theorem test_sub_vf : answers (ran 0x8F15 (withRegs [(15, 0x05), (1, 0x03)])) (fun t => t.v 15 == 0xFE) = true := by decide +kernel

/-- T70 -/
theorem test_shr : answers (ran 0x8126 (withRegs [(1, 0x05), (2, 0xAA)])) (fun t => t.v 1 == 0x02 && t.v 15 == 0x01 && t.v 2 == 0xAA) = true := by decide +kernel

/-- T74 -/
theorem test_shr_vf : answers (ran 0x8F16 (withRegs [(15, 0x07)])) (fun t => t.v 15 == 0x00) = true := by decide +kernel

/-- T77 -/
theorem test_subn_borrow : answers (ran 0x8127 (withRegs [(1, 0x33), (2, 0x10), (15, 0x01)])) (fun t => t.v 1 == 0xDD && t.v 15 == 0x00) = true := by decide +kernel

/-- T81 -/
theorem test_subn_vf : answers (ran 0x81F7 (withRegs [(1, 0x03), (15, 0x04)])) (fun t => t.v 1 == 0xFE && t.v 15 == 0x01) = true := by decide +kernel

/-- T84 -/
theorem test_shl : answers (ran 0x812E (withRegs [(1, 0x81), (2, 0x33)])) (fun t => t.v 1 == 0x02 && t.v 15 == 0x01) = true := by decide +kernel

/-- T88 -/
theorem test_shl_vf : answers (ran 0x8F1E (withRegs [(15, 0x81)])) (fun t => t.v 15 == 0x02) = true := by decide +kernel

/-- T90: the random byte is 0xA7. -/
theorem test_rnd : answers (step { (withRegs [(1, 0xFF)]).withFetchWord 16 0xC10F with inputs := [.step 0xA7] })
    (fun t => t.v 1 == 0x07 && t.inputs.isEmpty) = true := by decide +kernel

/-- T96 -/
theorem test_ldI : answers (ran 0xAFFF { State.reset with I := 0x1234 }) (fun t => t.I == 0x0FFF) = true := by decide +kernel

/-- T99 -/
theorem test_addI_wraps : answers (ran 0xF11E { (withRegs [(1, 0x02), (15, 0x07)]) with I := 0xFFFF }) (fun t => t.I == 0x0001 && t.v 15 == 0x07) = true := by decide +kernel

/-- T26 -/
theorem test_jpV0 : answers (ran 0xBFFF (withRegs [(0, 0xFF)])) (fun t => t.pc == 0x10FE) = true := by decide +kernel

/-- T106 -/
theorem test_ldB : answers (ran 0xF133 { (withRegs [(1, 0x7B)]) with I := 0x0FFD }) (fun t => t.byteAt 0xFFD == 1 && t.byteAt 0xFFE == 2 && t.byteAt 0xFFF == 3) = true := by decide +kernel

/-- T107 -/
theorem test_ldB_outside : answers (ran 0xF133 { (withRegs [(1, 0x7B)]) with I := 0x0FFE }) (fun t => t.byteAt 0xFFE == 0 && t.fault == oob .dataWrite 0xFFE 0x200) = true := by decide +kernel

/-- T109 -/
theorem test_storeRegs : answers (ran 0xF255 { (withRegs [(0, 0x11), (1, 0x22), (2, 0x33), (3, 0x44)]) with I := 0x0400 }) (fun t => t.byteAt 0x400 == 0x11 && t.byteAt 0x402 == 0x33 && t.byteAt 0x403 == 0 && t.I == 0x0400) = true := by decide +kernel

/-- T111 -/
theorem test_storeRegs_outside : answers (ran 0xF155 { (withRegs [(0, 0xAB), (1, 0xCD)]) with I := 0x0FFF }) (fun t => t.byteAt 0xFFF == 0 && t.fault == oob .dataWrite 0xFFF 0x200) = true := by decide +kernel

/-- T114 -/
theorem test_loadRegs : answers (ran 0xF265 { putBytes (withRegs [(3, 0x99)]) 0x400 [0x11, 0x22, 0x33, 0x44] with I := 0x0400 }) (fun t => t.v 0 == 0x11 && t.v 2 == 0x33 && t.v 3 == 0x99) = true := by decide +kernel

/-- T116 -/
theorem test_loadRegs_outside : answers (ran 0xF165 { putBytes (withRegs [(0, 0x01), (1, 0x02)]) 0xFFF [0x77] with I := 0x0FFF }) (fun t => t.v 0 == 0x01 && t.fault == oob .dataRead 0xFFF 0x200) = true := by decide +kernel

/-- T124 -/
theorem test_drw_collision : answers (ran 0xD121 { putBytes (lit (withRegs [(1, 0x02)]) [(0, 5)]) 0x300 [0xF0] with I := 0x0300 }) (fun t => t.v 15 == 1 && litIs t [(0, 2), (0, 3), (0, 4)]) = true := by decide +kernel

/-- T137 -/
theorem test_drw_x_is_vf : answers (ran 0xDF11 { putBytes (lit (withRegs [(15, 0x09)]) [(0, 2)]) 0x300 [0xFF] with I := 0x0300 }) (fun t => t.v 15 == 1 && litIs t [(0, 0), (0, 1), (0, 4), (0, 5), (0, 6), (0, 7), (0, 8)]) = true := by decide +kernel

/-- T143 -/
theorem test_skp : answers (ran 0xE19E (press (withRegs [(1, 0x0F)]) [15])) (fun t => t.pc == 0x0204) = true := by decide +kernel

/-- T144 -/
theorem test_skp_noKey : answers (ran 0xE19E (withRegs [(1, 0x10)])) (fun t => t.pc == 0x0200 && t.fault == oob .keyIndex 0x10 0x200) = true := by decide +kernel

/-- T141 -/
theorem test_sknp : answers (ran 0xE1A1 (press (withRegs [(1, 0x05)]) [5])) (fun t => t.pc == 0x0202) = true := by decide +kernel

/-- T142 -/
theorem test_sknp_up : answers (ran 0xE1A1 (withRegs [(1, 0x05)])) (fun t => t.pc == 0x0204) = true := by decide +kernel

/-- T147 -/
theorem test_ldVxK_none : answers (ran 0xF10A (withRegs [(1, 0x77)])) (fun t => t.pc == 0x0200 && t.v 1 == 0x77) = true := by decide +kernel

/-- T148 -/
theorem test_ldVxK : answers (ran 0xF10A (press (withRegs [(1, 0x77)]) [15, 9, 3])) (fun t => t.pc == 0x0202 && t.v 1 == 0x03) = true := by decide +kernel

/-- T150 -/
theorem test_ldVxDT : answers (ran 0xF107 { State.reset with DT := 0x2A }) (fun t => t.v 1 == 0x2A) = true := by decide +kernel

/-- T151 -/
theorem test_ldDTVx : answers (ran 0xF115 (withRegs [(1, 0x3C)])) (fun t => t.DT == 0x3C && t.ST == 0) = true := by decide +kernel

/-- T152 -/
theorem test_ldSTVx : answers (ran 0xF118 (withRegs [(1, 0x02)])) (fun t => t.ST == 0x02 && t.DT == 0) = true := by decide +kernel

/-- T156 -/
theorem test_undef : answers (ran 0x8128 (withRegs [(1, 0x01), (2, 0x02), (15, 0x03)])) (fun t => t.pc == 0x0202 && t.diag && t.v 1 == 1 && t.v 15 == 3) = true := by decide +kernel

/-! The other events. -/

/-- T31, T32: a fetch above 0xFFE. -/
theorem test_fetch_outside : answers (step { State.reset with pc := 0x0FFF })
    (fun t => t.pc == 0x0FFF && t.fault == oob .fetch 0xFFF 0xFFF) = true := by decide +kernel

/-- S6: a timer at 0 stays, one at 0xFF goes to 0xFE. -/
theorem test_tick : answers (fire .tick { State.reset with DT := 0xFF }) (fun t => t.DT == 0xFE && t.ST == 0) = true := by
  decide +kernel

/-- R182: the image over MEM_INIT. -/
theorem test_load : answers (fire (.load [(0x1FF, 0xB4), (0x200, 1)] [0x60, 0x05]) State.reset)
    (fun t => t.byteAt 0x1FF == 0xB4 && t.byteAt 0x200 == 0x60 && t.byteAt 0x201 == 0x05) = true := by decide +kernel

/-- R155: Reset is the way out of a fault, and memory stays. -/
theorem test_reset : answers (fire .reset { putBytes State.reset 0x300 [7] with fault := oob .fetch 0xFFF 0xFFF, pc := 0xFFF })
    (fun t => t.fault.isNone && t.pc == 0x0200 && t.byteAt 0x300 == 7) = true := by decide +kernel

/-- P7: what a machine with nothing loaded runs first is the word 0x0000, CLS. -/
theorem test_nothing_loaded : answers (step (lit State.reset [(1, 1)])) (fun t => litIs t [] && t.pc == 0x0202) = true := by
  decide +kernel

/-! Witnesses: the hypotheses of each obligation that has any can be met. -/

/-- A program word at 0xFFE, the last address a fetch can have. -/
def atTop : State := { putBytes State.reset 0xFFE [0x6A, 0x11] with pc := 0x0FFE }

/-- A halted machine. -/
def halted : State := { State.reset with fault := oob .stackUnderflow 0 0x0200 }

theorem witness_StepRunsDecodedInstruction :
    (atTop.fault = none ∧ atTop.pc.toNat ≤ 0xFFE ∧ atTop.inputs = [] ∧
      decode [atTop.byteAt atTop.pc.toNat, atTop.byteAt (atTop.pc.toNat + 1)] = .ok (.ldImm 10 0x11, [])) ∧
    ({ atTop with inputs := [.step 9] }).inputs = .step 9 :: [] := by decide +kernel

theorem witness_QueuedEventIsPerformed :
    ({ halted with inputs := [.keySet 3 true, .reset] }).inputs = .keySet 3 true :: [.reset] ∧
    answers (step { halted with inputs := [.keySet 3 true, .reset] }) (fun t => t.keyDown 3) = true := by decide +kernel

theorem witness_FetchIsBigEndianOrFaults :
    (0x0FFE : Word).toNat ≤ 0xFFE ∧ 0xFFE < (0x0FFF : Word).toNat ∧ ({ State.reset with pc := 0x0FFF }).fault = none ∧
    NextIsStep { State.reset with pc := 0x0FFF } ∧ 0xFFE < ({ State.reset with pc := 0x0FFF }).pc.toNat := ⟨by decide, by decide, rfl, .inl rfl, by decide⟩

theorem witness_PlacedWordRunsNext :
    atTop.fault = none ∧ atTop.pc.toNat ≤ 0xFFE := by decide +kernel

theorem witness_LoadPlacesTheImage :
    ((List.replicate 3584 (0 : Byte)).length ≤ 3584 ∧ State.reset.phase = .awaitingLoad ∧
      3583 < (List.replicate 3584 (0 : Byte)).length ∧ 0x1FF < 4096 ∧ 0x1FF < 0x200) ∧
    3584 < (List.replicate 3585 (0 : Byte)).length ∧
    (0xFFF < 4096 ∧ 0x200 + (List.replicate 3583 (0 : Byte)).length ≤ 0xFFF) ∧
    ({ State.reset with phase := .running }).phase ≠ .awaitingLoad := by simp only [List.length_replicate]; decide

theorem witness_TickCountsTimersDown :
    State.reset.fault = none ∧ halted.fault = some ⟨.outOfBounds, .stackUnderflow, 0, 0x0200⟩ := by decide +kernel

theorem witness_KeySetWritesOneLevel :
    HostEvent.step 0 ≠ .reset ∧ (∀ k b, HostEvent.step 0 ≠ .keySet k b) ∧
    answers (fire (.step 0) State.reset) (fun _ => true) = true := by decide +kernel

theorem witness_OpcodeMapIsTheDecoder :
    (∃ row, row ∈ opRows ∧ (0x00EE : Word) &&& row.mask = row.pattern) ∧
    ∀ row ∈ opRows, (0x8128 : Word) &&& row.mask ≠ row.pattern := by
  refine ⟨⟨⟨0xF00F, 0x000E, fun _ => .ret⟩, ?_, by decide⟩, ?_⟩
  · simp [opRows]
  · simp [opRows]

theorem witness_UnrecognisedWordsAreTheFourSets :
    unrecognised 0x0001 = true ∧ unrecognised 0x8008 = true ∧ unrecognised 0xE000 = true ∧ unrecognised 0xFFFF = true := by decide +kernel

theorem witness_IgnoredBitsDoNotMatter :
    ((0x0000 ^^^ 0x0FF0 : Word) &&& 0xF000 = 0 ∧ (0x0000 : Word) &&& 0xF000 = 0x0000 ∧
      (0x0000 : Word) &&& 0x000F ∈ [0x0#16, 0xE#16] ∧ (0x0000 ^^^ 0x0FF0 : Word) &&& 0x000F = 0) ∧
    ((0x00EE ^^^ 0x0ABE : Word) &&& 0xF000 = 0 ∧ (0x00EE : Word) &&& 0x000F ∈ [0x0#16, 0xE#16] ∧
      (0x00EE ^^^ 0x0ABE : Word) &&& 0x000F = 0) ∧
    ((0x9120 ^^^ 0x912F : Word) &&& 0xF000 = 0 ∧ (0x9120 : Word) &&& 0xF000 ∈ [0x5000#16, 0x9000#16] ∧
      (0x9120 ^^^ 0x912F : Word) &&& 0x0FF0 = 0) ∧
    ((0x8106 ^^^ 0x81F6 : Word) &&& 0xF000 = 0 ∧ (0x8106 : Word) &&& 0xF00F ∈ [0x8006#16, 0x800E#16] ∧
      (0x8106 ^^^ 0x81F6 : Word) &&& 0x0F0F = 0) := by decide +kernel

theorem witness_DecodeOfEncode :
    WellFormed (.drw 15 15 15) = true ∧ WellFormed (.undef 0xFFFF) = true := by decide +kernel

/-! The word patterns that the per-instruction statements name are met by the words of the decode tests. -/

theorem witness_CallPushesReturnAddress :
    (15 : Fin 16).val = ({ State.reset with sp := 15 }).sp.val ∧ (0 : Fin 16).val = State.reset.sp.val ∧
    ({ State.reset with sp := 16 }).sp.val = 16 := by decide +kernel

theorem witness_ReturnPopsTopEntry :
    (0 : Fin 16).val + 1 = ({ State.reset with sp := 1 }).sp.val ∧
    (15 : Fin 16).val + 1 = ({ State.reset with sp := 16 }).sp.val ∧ State.reset.sp.val = 0 := by decide +kernel

theorem witness_CallReturnBalance :
    State.reset.sp.val + (List.replicate 16 (0x206 : Addr12)).length ≤ 16 ∧ 1 ≤ 16 ∧
    16 ≤ (List.replicate 16 (0x206 : Addr12)).length ∧
    ({ State.reset with sp := 15 }).sp.val + ([0x206] : List Addr12).length ≤ 16 ∧ 1 ≤ ([0x206] : List Addr12).length ∧
    State.reset.sp.val < 16 ∧
    paired (15 - State.reset.sp.val) 0 [.ldImm 0 1, .call 0x206, .ret, .call 0x208, .addImm 0 1, .ret] = true ∧
    ({ State.reset with sp := 15 }).sp.val < 16 ∧ paired (15 - ({ State.reset with sp := 15 }).sp.val) 0 [.cls] = true ∧
    raisesOnData .cls = false := by decide +kernel

theorem witness_LogicClearsVF_AddSetsCarry_ShiftSetsDroppedBit :
    (14 : Reg) ≠ 15 ∧ (15 : Reg) = 15 := by decide +kernel

theorem witness_SubtractSetsNotBorrow :
    (1 : Byte) = (if ((withRegs [(1, 5)]).v 1).toNat < ((withRegs [(1, 5)]).v 2).toNat then 0 else 1) ∧
    (0 : Byte) = (if ((withRegs [(1, 5)]).v 2).toNat < ((withRegs [(1, 5)]).v 1).toNat then 0 else 1) ∧ (14 : Reg) ≠ 15 := by decide +kernel

theorem witness_OldRandomByteIsNotUsed :
    State.reset.inputs = [] ∧ ({ State.reset with inputs := [.step 7] }).inputs = .step 7 :: [] := by decide +kernel

theorem witness_StoreDecimalDigits :
    ({ State.reset with I := 0x0FFD }).I.toNat + 2 ≤ 0xFFF ∧ 0xFFF < ({ State.reset with I := 0x0FFE }).I.toNat + 2 := by decide +kernel

theorem witness_StoreRegisterBlock_LoadRegisterBlock :
    (({ State.reset with I := 0x0FF0 }).I.toNat + (15 : Reg).val ≤ 0xFFF ∧ (15 : Reg) ≤ 15) ∧
    0xFFF < ({ State.reset with I := 0x0FF1 }).I.toNat + (15 : Reg).val ∧
    ({ State.reset with I := 0x0FFF }).I.toNat + (0 : Reg).val ≤ 0xFFF ∧ 0xFFF < ({ State.reset with I := 0x1000 }).I.toNat + (0 : Reg).val := by decide +kernel

theorem witness_StoreIsSeenByFetch :
    1 ≤ (1 : Reg).val ∧ ({ State.reset with I := 0x0FFE }).I.toNat + (1 : Reg).val ≤ 0xFFF := by decide +kernel

theorem witness_DrawPixelByPixel :
    ((0 : Fin 16).val = 0 ∨ ({ State.reset with I := 0xFFFF }).I.toNat + (0 : Fin 16).val - 1 ≤ 0xFFF) ∧
    ((15 : Fin 16).val = 0 ∨ ({ State.reset with I := 0x0FF1 }).I.toNat + (15 : Fin 16).val - 1 ≤ 0xFFF) := by decide +kernel

theorem witness_DrawClosedForm_DrawTwiceRestores :
    (1 : Reg) ≠ 15 ∧ (14 : Reg) ≠ 15 ∧
    ((15 : Fin 16).val = 0 ∨ ({ State.reset with I := 0x0FF1 }).I.toNat + (15 : Fin 16).val - 1 ≤ 0xFFF) := by decide +kernel

/-- The two sides of the collision clause: a lit pixel under a sprite bit, and a sprite over a dark screen. -/
def drawn : State := { putBytes (lit State.reset [(0, 0)]) 0x300 [0x80] with I := 0x0300 }

theorem witness_DrawClosedForm_collision :
    (drawn.pixel 0 0 = true ∧ spriteAt drawn 1 2 1 0 0 = true) ∧
    ∀ r c, State.reset.pixel r c = true → spriteAt State.reset 1 2 1 r c = false := by decide +kernel

theorem witness_DrawOutsideMemoryRaises :
    1 ≤ (1 : Fin 16).val ∧ 0xFFF < ({ State.reset with I := 0x1000 }).I.toNat + (1 : Fin 16).val - 1 := by decide +kernel

theorem witness_SkipOnKeyLevel :
    ((withRegs [(1, 0x0F)]).v 1).toNat = (15 : Fin 16).val ∧
    15 < ((withRegs [(1, 0x10)]).v 1).toNat ∧ (0x0010 : Word).toNat = ((withRegs [(1, 0x10)]).v 1).toNat := by decide +kernel

theorem witness_WaitForKey :
    (∀ k, State.reset.keyDown k = false) ∧ (press State.reset [15]).keyDown 15 = true ∧
    ∀ j : Fin 16, j < 15 → (press State.reset [15]).keyDown j = false := by decide +kernel

theorem witness_UnrecognisedIsNoOperation :
    unrecognised 0x0001 = true ∧ unrecognised 0xF129 = true := by decide +kernel

theorem witness_DiagOnlyOnUnrecognised :
    NextIsStep (State.reset.withFetchWord 16 0x8128) ∧
    NextIsStep { State.reset.withFetchWord 16 0x8128 with inputs := [.step 5] } ∧
    (State.reset.withFetchWord 16 0x8128).fetch (State.reset.withFetchWord 16 0x8128).pc = some 0x8128 ∧
    answers (step (State.reset.withFetchWord 16 0x8128)) (fun t => t.diag) = true ∧
    answers (step (State.reset.withFetchWord 16 0x6011)) (fun t => !t.diag) = true := by
  exact ⟨.inl rfl, .inr ⟨5, [], rfl⟩, by decide +kernel, by decide +kernel, by decide +kernel⟩

theorem witness_FaultingStepIsPrecise :
    NextIsStep (State.reset.withFetchWord 16 0x00EE) ∧ (State.reset.withFetchWord 16 0x00EE).fault = none ∧
    answers (step (State.reset.withFetchWord 16 0x00EE)) (fun t => t.fault == oob .stackUnderflow 0 0x0200) = true := ⟨.inl rfl, rfl, by decide +kernel⟩

theorem witness_OnlyTheseConditionsRaise :
    State.reset.fault = none ∧
    answers (exec .ret State.reset) (fun t => t.fault.isSome) = true ∧
    answers (exec (.call 0) { State.reset with sp := 16 }) (fun t => t.fault.isSome) = true ∧
    answers (exec (.drw 0 0 1) { State.reset with I := 0x1000 }) (fun t => t.fault.isSome) = true ∧
    answers (exec (.loadRegs 0) { State.reset with I := 0x1000 }) (fun t => t.fault.isSome) = true ∧
    answers (exec (.ldB 0) { State.reset with I := 0x0FFE }) (fun t => t.fault.isSome) = true ∧
    answers (exec (.storeRegs 0) { State.reset with I := 0x1000 }) (fun t => t.fault.isSome) = true ∧
    answers (exec (.skp 1) (withRegs [(1, 16)])) (fun t => t.fault.isSome) = true ∧
    answers (exec (.sknp 1) (withRegs [(1, 16)])) (fun t => t.fault.isSome) = true := by decide +kernel

theorem witness_HaltedUntilReset :
    halted.fault = some ⟨.outOfBounds, .stackUnderflow, 0, 0x0200⟩ ∧ halted.inputs = [] ∧
    HostEvent.keySet 0 true ≠ .reset ∧ answers (fire (.keySet 0 true) halted) (fun t => t.fault == halted.fault) = true := by decide +kernel

theorem witness_ElementsHaveTheirWriters :
    answers (exec (.ldI 1) State.reset) (fun t => t.I != State.reset.I) = true ∧
    answers (exec (.call 1) State.reset) (fun t => t.sp != State.reset.sp && t.slot 0 != State.reset.slot 0) = true ∧
    answers (exec (.ldDTVx 1) (withRegs [(1, 1)])) (fun t => t.DT != 0) = true ∧
    answers (exec (.ldSTVx 1) (withRegs [(1, 1)])) (fun t => t.ST != 0) = true ∧
    answers (exec .cls (lit State.reset [(0, 0)])) (fun t => t.pixel 0 0 != (lit State.reset [(0, 0)]).pixel 0 0) = true ∧
    answers (exec (.storeRegs 0) (withRegs [(0, 1)])) (fun t => t.byteAt 0 != State.reset.byteAt 0) = true ∧
    answers (exec (.jp 1) State.reset) (fun t => t.fault.isNone && t.pc != State.reset.pc) = true := by decide +kernel

theorem witness_SelfJumpRests :
    (State.reset.withFetchWord 16 0x1200).fault = none ∧ NextIsStep (State.reset.withFetchWord 16 0x1200) ∧
    (State.reset.withFetchWord 16 0x1200).pc.toNat = (0x200 : Addr12).toNat ∧
    (State.reset.withFetchWord 16 0x1200).fetch (State.reset.withFetchWord 16 0x1200).pc = some (encodeWord (.jp 0x200)) := ⟨rfl, .inl rfl, by decide, by decide +kernel⟩

theorem witness_StepKeepsMemoryCanonical :
    ∃ t, MemCanonical (putBytes (withRegs [(0, 7)]) 0x200 [0xF0, 0x55]) ∧
      step (putBytes (withRegs [(0, 7)]) 0x200 [0xF0, 0x55]) = .next t ∧ t.byteAt 0 = 7 := by
  obtain ⟨t, h, ht⟩ := exists_of_answers (r := step (putBytes (withRegs [(0, 7)]) 0x200 [0xF0, 0x55]))
    (Q := fun t => t.byteAt 0 == 7) (by decide +kernel)
  exact ⟨t, by unfold MemCanonical; decide +kernel, h, by simpa using ht⟩

theorem witness_StepKeepsPcBounded :
    ∃ t, PcBounded (putBytes (withRegs [(0, 0xFF)]) 0x200 [0xBF, 0xFF]) ∧
      step (putBytes (withRegs [(0, 0xFF)]) 0x200 [0xBF, 0xFF]) = .next t ∧ t.pc.toNat = 0x10FE := by
  obtain ⟨t, h, ht⟩ := exists_of_answers (r := step (putBytes (withRegs [(0, 0xFF)]) 0x200 [0xBF, 0xFF]))
    (Q := fun t => decide (t.pc.toNat = 0x10FE)) (by decide +kernel)
  exact ⟨t, by unfold PcBounded; decide +kernel, h, by simpa using ht⟩

theorem witness_StepKeepsLatchTruthful :
    ∃ t, LatchTruthful { halted with inputs := [.keySet 3 true] } ∧
      step { halted with inputs := [.keySet 3 true] } = .next t ∧ t.fault = halted.fault := by
  obtain ⟨t, h, ht⟩ := exists_of_answers (r := step { halted with inputs := [.keySet 3 true] })
    (Q := fun t => decide (t.fault = halted.fault)) (by decide +kernel)
  refine ⟨t, fun f hf => ?_, h, by simpa using ht⟩
  obtain rfl : (⟨.outOfBounds, .stackUnderflow, 0, 0x0200⟩ : FaultRecord) = f := Option.some.inj hf
  exact ⟨rfl, rfl, rfl, rfl⟩

end Sys2Proof.Tests
end

/-! PROOFS for 30_encoding.md: the document's masks and shifts pick out the decoder's fields (R51). -/

namespace Sys2Proof

/-! The masks of R51 that Laws/Decode.lean does not read yet. -/

theorem and_0FFF_toNat (w : Word) : (w &&& 0x0FFF#16).toNat = (fieldNNN w).toNat := by
  rw [BitVec.toNat_and, fieldNNN_toNat]
  exact Nat.and_two_pow_sub_one_eq_mod w.toNat 12

/-- A mask that is one nibble at bit `k`, shifted down by `k`, reads that nibble. -/
theorem and_shiftRight_nibble_toNat (w m : Word) (k : Nat) (hm : m >>> k = 0x000F#16) :
    ((w &&& m) >>> k).toNat = w.toNat / 2 ^ k % 16 := by
  rw [BitVec.ushiftRight_and_distrib, hm, BitVec.toNat_and, BitVec.toNat_ushiftRight, Nat.shiftRight_eq_div_pow]
  exact Nat.and_two_pow_sub_one_eq_mod (w.toNat / 2 ^ k) 4

theorem and_0F00_shiftRight_toNat (w : Word) : ((w &&& 0x0F00#16) >>> 8).toNat = (fieldX w).val := by
  rw [fieldX_val]
  exact and_shiftRight_nibble_toNat w 0x0F00#16 8 (by decide)

theorem and_00F0_shiftRight_toNat (w : Word) : ((w &&& 0x00F0#16) >>> 4).toNat = (fieldY w).val := by
  rw [fieldY_val]
  exact and_shiftRight_nibble_toNat w 0x00F0#16 4 (by decide)

/-- Settles O12: each formula of R51 is the lemma that reads its mask. -/
theorem fieldsAreTheFormulas : Obligations.FieldsAreTheFormulas := by
  intro w
  exact ⟨(and_F000_toNat w).symm, (and_0FFF_toNat w).symm, (and_0F00_shiftRight_toNat w).symm,
    (and_00F0_shiftRight_toNat w).symm, (and_000F_toNat w).symm, (and_00FF_toNat w).symm⟩

end Sys2Proof

/-! PROOFS for 40_flow.md: the jumps and the immediate skips, each one write of `pc` (R71, R73, R74, R77). -/

namespace Sys2Proof

open Machine

/-- Settles O18: JP writes `nnn`, widened, to `pc`. -/
theorem jumpSetsPc : Obligations.JumpSetsPc :=
  ⟨decodes_jp, fun nnn s => ⟨_, exec_jp s nnn, zext16OfAddr_toNat nnn, changesOnly_setPc s _⟩⟩

/-- The target of JP V0 is below 2^12 + 2^8, so the 16-bit sum loses nothing (R77). -/
theorem zext16OfAddr_add_zext16OfByte_toNat (a : Addr12) (b : Byte) :
    (zext16OfAddr a + zext16OfByte b).toNat = a.toNat + b.toNat := by
  have := a.isLt; have := b.isLt
  have hsum : (zext16OfAddr a).toNat + (zext16OfByte b).toNat < 2 ^ 16 := by
    rw [zext16OfAddr_toNat, zext16OfByte_toNat]; omega
  rw [BitVec.toNat_add_of_lt hsum, zext16OfAddr_toNat, zext16OfByte_toNat]

/-- Settles O19: JP V0 writes `nnn + V0` to `pc`, and the sum is exact. -/
theorem jumpOffsetAddsV0 : Obligations.JumpOffsetAddsV0 :=
  ⟨decodes_jpV0, fun nnn s =>
    ⟨_, exec_jpV0 s nnn, zext16OfAddr_add_zext16OfByte_toNat nnn (s.v 0), changesOnly_setPc s _⟩⟩

/-- Settles O23: each skip writes `pc`, and the test of its two outcomes is equality of `Vx` and `kk`. -/
theorem skipOnImmediate : Obligations.SkipOnImmediate := by
  refine ⟨decodes_seImm, decodes_sneImm, fun x kk s =>
    ⟨⟨_, exec_seImm s x kk, ?_, changesOnly_setPc s _⟩, ⟨_, exec_sneImm s x kk, ?_, changesOnly_setPc s _⟩⟩⟩
  · simp only [State.setPc_pc, beq_iff_eq]
  · simp only [State.setPc_pc, bne_iff_ne, ne_eq, ite_not]

end Sys2Proof

/-! PROOFS for 41_alu.md: the load, the add and the copy that write one register and no flag (R90, R91, R92). -/

namespace Sys2Proof

open Machine

/-- A register reads the byte just written to it. -/
theorem setV_v_same (s : State) (r : Reg) (b : Byte) : (s.setV r b).v r = b := by
  rw [State.setV_v, if_pos rfl]

/-- Settles O25: LD Vx, kk is the one write of `kk` to `V[x]`. -/
theorem loadImmediate : Obligations.LoadImmediate :=
  ⟨decodes_ldImm, fun x kk s => ⟨_, exec_ldImm s x kk, setV_v_same s x kk, changesOnly_setV s x kk⟩⟩

/-- What ADD Vx, kk leaves in `V[x]` (R91). -/
theorem setV_add_v_toNat (s : State) (x : Reg) (kk : Byte) :
    ((s.setV x (s.v x + kk)).v x).toNat = ((s.v x).toNat + kk.toNat) % 256 := by
  rw [setV_v_same, BitVec.toNat_add]

/-- The load of `kk` makes both operands of the add `kk`, so together they double it (R90, R91). -/
theorem setV_setV_add_v_toNat (s : State) (x : Reg) (kk : Byte) :
    (((s.setV x kk).setV x ((s.setV x kk).v x + kk)).v x).toNat = 2 * kk.toNat % 256 := by
  rw [setV_add_v_toNat, setV_v_same, Nat.two_mul]

/-- Settles O26: ADD Vx, kk is the one write of the sum to `V[x]`, alone and after a load of `kk`. -/
theorem addImmediateWraps : Obligations.AddImmediateWraps :=
  ⟨decodes_addImm, fun x kk s =>
    ⟨⟨_, exec_addImm s x kk, setV_add_v_toNat s x kk, changesOnly_setV s x _⟩,
      ⟨_, exec_ldImm s x kk, _, exec_addImm _ x kk, setV_setV_add_v_toNat s x kk⟩⟩⟩

/-- Settles O27: LD Vx, Vy is the one write of `V[y]` to `V[x]`. -/
theorem copyRegister : Obligations.CopyRegister :=
  ⟨decodes_ldReg, fun x y s => ⟨_, exec_ldReg s x y, setV_v_same s x (s.v y), changesOnly_setV s x _⟩⟩

end Sys2Proof

/-! PROOFS for 42_index_memory.md: the load of `I`, one write of the index register (R110). -/

namespace Sys2Proof

open Machine

/-- Settles O34: LD I, nnn is the one write of `nnn`, widened, to `I`. -/
theorem setIndex : Obligations.SetIndex :=
  ⟨decodes_ldI, fun nnn s => ⟨_, exec_ldI s nnn, zext16OfAddr_toNat nnn, changesOnly_setI s _⟩⟩

end Sys2Proof

/-! PROOFS for 44_keypad_timers.md: the moves between a register and a timer, each one write (R132, R134, R135). -/

namespace Sys2Proof

open Machine

/-- The frame of a write to `DT` (R15): the one part it can change is the one named. -/
theorem changesOnly_setDT (s : State) (b : Byte) : ChangesOnly (fun p => p = .DT) s (s.setDT b) := by
  intro p hp
  cases p with
  | DT => exact absurd rfl hp
  | _ => rfl

/-- The frame of a write to `ST` (R15). -/
theorem changesOnly_setST (s : State) (b : Byte) : ChangesOnly (fun p => p = .ST) s (s.setST b) := by
  intro p hp
  cases p with
  | ST => exact absurd rfl hp
  | _ => rfl

/-- Settles O48: each move is the one write, to `V[x]`, `DT` or `ST`, of the byte the other holds. -/
theorem timerMoves : Obligations.TimerMoves :=
  ⟨decodes_ldVxDT, decodes_ldDTVx, decodes_ldSTVx, fun x s =>
    ⟨⟨_, exec_ldVxDT s x, setV_v_same s x s.DT, changesOnly_setV s x s.DT⟩,
      ⟨_, exec_ldDTVx s x, State.setDT_DT s (s.v x), changesOnly_setDT s (s.v x)⟩,
      ⟨_, exec_ldSTVx s x, State.setST_ST s (s.v x), changesOnly_setST s (s.v x)⟩⟩⟩

end Sys2Proof

/-! PROOFS for 30_encoding.md: the encoder and the decoder undo each other, the opcode map is the decoder, and the ignored
bits have no part in it (R50 to R59). -/

namespace Sys2Proof

open Machine

/-! The round trip (R59). -/

/-- The per-instruction round trips of Laws/PerInstr.lean, for any instruction. -/
theorem decodeWord_encodeWord {i : Instr} (h : WellFormed i = true) : decodeWord (encodeWord i) = i := by
  cases i with
  | cls => exact Laws.RoundTrip.cls h
  | ret => exact Laws.RoundTrip.ret h
  | jp nnn => exact Laws.RoundTrip.jp nnn h
  | call nnn => exact Laws.RoundTrip.call nnn h
  | seImm x kk => exact Laws.RoundTrip.seImm x kk h
  | sneImm x kk => exact Laws.RoundTrip.sneImm x kk h
  | seReg x y => exact Laws.RoundTrip.seReg x y h
  | ldImm x kk => exact Laws.RoundTrip.ldImm x kk h
  | addImm x kk => exact Laws.RoundTrip.addImm x kk h
  | ldReg x y => exact Laws.RoundTrip.ldReg x y h
  | orReg x y => exact Laws.RoundTrip.orReg x y h
  | andReg x y => exact Laws.RoundTrip.andReg x y h
  | xorReg x y => exact Laws.RoundTrip.xorReg x y h
  | addReg x y => exact Laws.RoundTrip.addReg x y h
  | sub x y => exact Laws.RoundTrip.sub x y h
  | shr x => exact Laws.RoundTrip.shr x h
  | subn x y => exact Laws.RoundTrip.subn x y h
  | shl x => exact Laws.RoundTrip.shl x h
  | sneReg x y => exact Laws.RoundTrip.sneReg x y h
  | ldI nnn => exact Laws.RoundTrip.ldI nnn h
  | jpV0 nnn => exact Laws.RoundTrip.jpV0 nnn h
  | rnd x kk => exact Laws.RoundTrip.rnd x kk h
  | drw x y n => exact Laws.RoundTrip.drw x y n h
  | skp x => exact Laws.RoundTrip.skp x h
  | sknp x => exact Laws.RoundTrip.sknp x h
  | ldVxDT x => exact Laws.RoundTrip.ldVxDT x h
  | ldVxK x => exact Laws.RoundTrip.ldVxK x h
  | ldDTVx x => exact Laws.RoundTrip.ldDTVx x h
  | ldSTVx x => exact Laws.RoundTrip.ldSTVx x h
  | addI x => exact Laws.RoundTrip.addI x h
  | ldB x => exact Laws.RoundTrip.ldB x h
  | storeRegs x => exact Laws.RoundTrip.storeRegs x h
  | loadRegs x => exact Laws.RoundTrip.loadRegs x h
  | undef w => exact Laws.RoundTrip.undef w h

/-- The decoder reads the two bytes of a word, high byte first, as that word (R50). -/
theorem decode_high_low (w : Word) (rest : List Byte) :
    decode (highByte w :: lowByte w :: rest) = .ok (decodeWord w, rest) := by
  rw [decode, joinBytes_high_low]

/-- Settles O16: the bytes of an instruction are those of its word, and its word decodes to it. -/
theorem decodeOfEncode : Obligations.DecodeOfEncode := by
  intro i rest h
  rw [encode, List.cons_append, List.cons_append, List.nil_append, decode_high_low, decodeWord_encodeWord h]

/-! The opcode map (R55, R57). -/

/-- Two masked patterns that one word meets agree where the masks overlap. -/
theorem xor_and_and_eq_zero {w m p n q : Word} (hp : w &&& m = p) (hq : w &&& n = q) : (p ^^^ q) &&& (m &&& n) = 0 := by
  rw [xor_and_eq_zero_iff, ← hp, ← hq, BitVec.and_assoc, BitVec.and_assoc, ← BitVec.and_assoc m, BitVec.and_self,
    ← BitVec.and_assoc n, BitVec.and_comm n m, BitVec.and_assoc, BitVec.and_self]

/-- Any two rows of the map disagree on a bit that both masks choose. -/
theorem opRows_patterns_differ :
    opRows.Pairwise (fun a b => (a.pattern ^^^ b.pattern) &&& (a.mask &&& b.mask) ≠ 0) := by
  decide

/-- A row of the map builds a well-formed instruction that is not UNDEF. -/
theorem opRows_build {row : OpRow} (hr : row ∈ opRows) (w : Word) :
    WellFormed (row.build w) = true ∧ ∀ v, row.build w ≠ .undef v := by
  revert row
  simp [opRows, WellFormed]

/-- Settles O13: a common word would make two rows agree under both masks, and a word of no row is unrecognised. -/
theorem opcodeMapIsTheDecoder : Obligations.OpcodeMapIsTheDecoder := by
  refine ⟨rfl, opRows_patterns_differ.imp fun hne w ⟨ha, hb⟩ => hne (xor_and_and_eq_zero ha hb), decodes_row, ?_⟩
  intro w hno
  obtain ⟨row, hr, hw⟩ | hu := row_or_unrecognised w
  · exact absurd hw (hno row hr)
  · exact decodeWord_of_unrecognised hu

/-- Settles O14: a word is in a row, whose instruction is not UNDEF, or unrecognised. -/
theorem unrecognisedWordsAreTheFourSets : Obligations.UnrecognisedWordsAreTheFourSets := by
  intro w
  obtain ⟨row, hr, hw⟩ | hu := row_or_unrecognised w
  · obtain ⟨hwf, hne⟩ := opRows_build hr w
    have hd : decodeWord w = row.build w := decodes_row row hr w hw
    refine ⟨⟨fun ⟨v, hv⟩ => absurd (hd.symm.trans hv) (hne v), fun hu => ?_⟩, hd ▸ hwf⟩
    exact absurd (hd.symm.trans (decodeWord_of_unrecognised hu)) (hne w)
  · have hd := decodeWord_of_unrecognised hu
    exact ⟨⟨fun _ => hu, fun _ => ⟨w, hd⟩⟩, by rw [hd]; exact hu⟩

/-- A word that decodes to UNDEF is unrecognised (R57). -/
theorem unrecognised_of_decodeWord {w v : Word} (h : decodeWord w = .undef v) : unrecognised w = true :=
  (unrecognisedWordsAreTheFourSets w).1.mp ⟨v, h⟩

/-! Ignored bits (R56). -/

/-- Words that agree under a mask agree under a part of it. -/
theorem and_eq_of_and_eq {w v m k : Word} (hk : m &&& k = k) (h : w &&& m = v &&& m) : w &&& k = v &&& k := by
  rw [← hk, ← BitVec.and_assoc, h, BitVec.and_assoc]

theorem fieldX_eq_of_and_eq {w v m : Word} (hm : m &&& 0x0F00#16 = 0x0F00#16) (h : w &&& m = v &&& m) :
    fieldX w = fieldX v := by
  apply Fin.ext
  rw [← and_0F00_shiftRight_toNat, ← and_0F00_shiftRight_toNat, and_eq_of_and_eq hm h]

theorem fieldY_eq_of_and_eq {w v m : Word} (hm : m &&& 0x00F0#16 = 0x00F0#16) (h : w &&& m = v &&& m) :
    fieldY w = fieldY v := by
  apply Fin.ext
  rw [← and_00F0_shiftRight_toNat, ← and_00F0_shiftRight_toNat, and_eq_of_and_eq hm h]

/-- Words that agree under two masks agree under both together. -/
theorem and_or_eq {w v m k : Word} (hm : w &&& m = v &&& m) (hk : w &&& k = v &&& k) :
    w &&& (m ||| k) = v &&& (m ||| k) := by
  rw [BitVec.and_or_distrib_left, BitVec.and_or_distrib_left, hm, hk]

/-- Two words of one row decode alike when the row's operands are alike. -/
theorem decodeWord_eq_of_row {mask pattern w v : Word} {build : Word → Instr} (hd : Decodes mask pattern build)
    (hw : w &&& mask = pattern) (hv : w &&& mask = v &&& mask) (hb : build w = build v) : decodeWord w = decodeWord v := by
  rw [hd w hw, hd v (hv ▸ hw), hb]

/-- Settles O15: the two words are of one row, and agree in each field that the row's instruction reads. -/
theorem ignoredBitsDoNotMatter : Obligations.IgnoredBitsDoNotMatter := by
  intro w v hc
  rw [xor_and_eq_zero_iff] at hc
  refine ⟨fun h0 hsel hn => ?_, fun hsel hxy => ?_, fun hsel hxn => ?_⟩
  · have hv : w &&& 0xF00F = v &&& 0xF00F := and_or_eq hc ((xor_and_eq_zero_iff w v _).mp hn)
    have hw : w &&& 0xF00F = (w &&& 0xF000) ||| (w &&& 0x000F) :=
      BitVec.and_or_distrib_left (x := w) (y := 0xF000#16) (z := 0x000F#16)
    rw [h0] at hw
    rcases List.mem_pair.mp hsel with h | h <;> rw [h] at hw
    · exact decodeWord_eq_of_row decodes_cls hw hv rfl
    · exact decodeWord_eq_of_row decodes_ret hw hv rfl
  · have hxy := (xor_and_eq_zero_iff w v _).mp hxy
    have hx : fieldX w = fieldX v := fieldX_eq_of_and_eq (by decide) hxy
    have hy : fieldY w = fieldY v := fieldY_eq_of_and_eq (by decide) hxy
    rcases List.mem_pair.mp hsel with h | h
    · exact decodeWord_eq_of_row decodes_seReg h hc (by rw [hx, hy])
    · exact decodeWord_eq_of_row decodes_sneReg h hc (by rw [hx, hy])
  · have hxn := (xor_and_eq_zero_iff w v _).mp hxn
    have hx : fieldX w = fieldX v := fieldX_eq_of_and_eq (by decide) hxn
    have hv : w &&& 0xF00F = v &&& 0xF00F := and_eq_of_and_eq (m := 0xFF0F) (by decide) (and_or_eq hc hxn)
    rcases List.mem_pair.mp hsel with h | h
    · exact decodeWord_eq_of_row decodes_shr h hv (by rw [hx])
    · exact decodeWord_eq_of_row decodes_shl h hv (by rw [hx])

/-- Settles O17: each word is one the decoder runs to its instruction. -/
theorem sampleWordsDecode : Obligations.SampleWordsDecode := by
  unfold Obligations.SampleWordsDecode
  decide

end Sys2Proof

/-! PROOFS, the layer under the statements about every instruction and every Step: the elements with their writers
(10_state.md section 1), and what a Step can do. -/

namespace Sys2Proof

open Machine

/-! What any instruction can write. -/

/-- Each element with the instructions that can write it (10_state.md section 1, the written-by column). -/
structure Writers (i : Instr) (s t : State) : Prop where
  I : t.I ≠ s.I → (∃ nnn, i = .ldI nnn) ∨ ∃ x, i = .addI x
  sp : t.sp ≠ s.sp → i = .ret ∨ ∃ nnn, i = .call nnn
  stack : t.stack ≠ s.stack → ∃ nnn, i = .call nnn
  DT : t.DT ≠ s.DT → ∃ x, i = .ldDTVx x
  ST : t.ST ≠ s.ST → ∃ x, i = .ldSTVx x
  fb : t.fb ≠ s.fb → i = .cls ∨ ∃ x y n, i = .drw x y n
  key : t.key = s.key
  mem : t.mem ≠ s.mem → (∃ x, i = .ldB x) ∨ ∃ x, i = .storeRegs x
  diag : t.diag ≠ s.diag → ∃ w, i = .undef w
  fault : t.fault = s.fault ∨ ∃ c info, t = s.raise c info
  pc : s.fault = none → t.fault = none → t.pc ≠ s.pc →
    (∃ nnn, i = .jp nnn ∨ i = .call nnn ∨ i = .jpV0 nnn) ∨ i = .ret ∨ (∃ x kk, i = .seImm x kk ∨ i = .sneImm x kk) ∨
    (∃ x y, i = .seReg x y ∨ i = .sneReg x y) ∨ ∃ x, i = .skp x ∨ i = .sknp x ∨ i = .ldVxK x

/-- A raise writes `pc` and the latch alone, and latches. -/
theorem writers_raise (i : Instr) (s : State) (c : FaultCause) (info : Word) : Writers i s (s.raise c info) := by
  constructor
  case fault => exact .inr ⟨c, info, rfl⟩
  all_goals simp

/-- An instruction's effect is on elements that name it as a writer. -/
theorem writers_of_effect {i : Instr} {s t : State} (h : Effect i s t) : Writers i s t := by
  cases i with
  | undef w => obtain rfl := h; constructor <;> simp
  | call nnn => obtain ⟨st, sp, w, rfl⟩ := h; constructor <;> simp
  | ret => obtain ⟨sp, w, rfl⟩ := h; constructor <;> simp
  | drw x y n => obtain ⟨V, fb, rfl⟩ := h; constructor <;> simp
  | ldVxK x => obtain ⟨w, rfl⟩ | ⟨V, rfl⟩ := h <;> constructor <;> simp
  | cls | jp _ | jpV0 _ | seImm _ _ | sneImm _ _ | seReg _ _ | sneReg _ _ | skp _ | sknp _ | ldI _ | addI _ | ldB _
  | storeRegs _ | ldDTVx _ | ldSTVx _ | ldImm _ _ | addImm _ _ | ldReg _ _ | orReg _ _ | andReg _ _ | xorReg _ _
  | addReg _ _ | sub _ _ | shr _ | subn _ _ | shl _ | rnd _ _ | ldVxDT _ | loadRegs _ =>
    obtain ⟨w, rfl⟩ := h; constructor <;> simp

theorem exec_writers {i : Instr} {s t : State} (h : exec i s = .next t) : Writers i s t := by
  obtain ⟨c, info, rfl⟩ | he := exec_effect h
  · exact writers_raise i s c info
  · exact writers_of_effect he

/-! The latch. -/

/-- An instruction that latches, begun with nothing latched, raised (60_exceptions.md R154). -/
theorem exec_latches {i : Instr} {s t : State} {f : FaultRecord} (hs : s.fault = none) (h : exec i s = .next t)
    (hf : t.fault = some f) : t = s.raise f.cause f.info ∧ f = ⟨.outOfBounds, f.cause, f.info, s.pc - 2⟩ := by
  obtain hk | ⟨c, info, rfl⟩ := (exec_writers h).fault
  · rw [hk, hs] at hf; cases hf
  · obtain rfl : _ = f := Option.some.inj hf
    exact ⟨rfl, rfl⟩

/-- An instruction with no condition of R151 leaves the latch. -/
theorem exec_keeps_fault {i : Instr} {s t : State} (h : exec i s = .next t) (hd : raisesOnData i = false)
    (hc : ∀ n, i ≠ .call n) (hr : i ≠ .ret) : t.fault = s.fault := by
  cases i with
  | ret => exact absurd rfl hr
  | call nnn => exact absurd rfl (hc nnn)
  | drw _ _ _ | loadRegs _ | ldB _ | storeRegs _ | skp _ | sknp _ => cases hd
  | ldVxK x =>
    cases hl : s.lowestKey with
    | none => rw [exec_ldVxK_none s x hl] at h; cases h; rfl
    | some k => rw [exec_ldVxK_some s x hl] at h; cases h; rfl
  | seImm x kk => rw [exec_seImm] at h; cases h; rfl
  | sneImm x kk => rw [exec_sneImm] at h; cases h; rfl
  | seReg x y => rw [exec_seReg] at h; cases h; rfl
  | sneReg x y => rw [exec_sneReg] at h; cases h; rfl
  | undef _ | cls | jp _ | jpV0 _ | ldI _ | addI _ | ldDTVx _ | ldSTVx _ | ldImm _ _ | addImm _ _ | ldReg _ _ | orReg _ _
  | andReg _ _ | xorReg _ _ | addReg _ _ | sub _ _ | shr _ | subn _ _ | shl _ | rnd _ _ | ldVxDT _ =>
    cases h; rfl

/-! What a Step can do. -/

/-- The start of a Step writes `diag` and `phase`, the model's own. -/
theorem changesOnly_beginStep (s : State) : ChangesOnly (fun p => p.architectural = false) s s.beginStep := by
  intro p hp
  cases p with
  | diag | phase => exact absurd rfl hp
  | _ => rfl

/-- An exception taken at the `pc` the state has writes the latch alone. -/
theorem changesOnly_takeException_pc (s : State) (c : FaultCause) (info : Word) :
    ChangesOnly (fun p => p = .fault) s (s.takeException s.pc c info) := by
  intro p hp
  cases p with
  | fault => exact absurd rfl hp
  | _ => rfl

/-- When the next event is a Step, `step` is the Step of a state that differs in the model's own fields alone. -/
theorem step_of_nextIsStep_frame {s : State} (h : NextIsStep s) :
    ∃ u, step s = stepInstruction u ∧ ChangesOnly (fun p => p.architectural = false) s u := by
  obtain ⟨u, hu, hs⟩ := step_of_nextIsStep h
  refine ⟨u, hu, fun p hp => ?_⟩
  obtain rfl | ⟨r, rfl⟩ := hs
  · cases p with
    | rand | draws => exact absurd rfl hp
    | _ => rfl
  · cases p with
    | rand | inputs => exact absurd rfl hp
    | _ => rfl

/-- The fetch reads memory alone. -/
theorem fetch_eq_of_byteAt {s u : State} (h : ∀ a, u.byteAt a = s.byteAt a) (a : Word) : u.fetch a = s.fetch a := by
  simp only [State.fetch, h]

/-- The word the next Step fetches is fetched by the Step it is. -/
theorem fetch_pc_eq_of_frame {s u : State} (h : ChangesOnly (fun p => p.architectural = false) s u) :
    u.fetch u.pc = s.fetch s.pc := by
  have hpc : u.pc = s.pc := h .pc (by decide)
  rw [hpc, fetch_eq_of_byteAt fun a => h (.mem a) (by simp [Part.architectural])]

/-- A Step that latches is an exception taken at its own `pc`, by the fetch or by the instruction. -/
theorem stepInstruction_latches {s t : State} {f : FaultRecord} (h : stepInstruction s = .next t) (hf : t.fault = some f) :
    t = s.beginStep.takeException s.pc f.cause f.info ∧ f = ⟨.outOfBounds, f.cause, f.info, s.pc⟩ := by
  obtain ⟨hs, ⟨_, rfl⟩ | ⟨w, _, hx⟩⟩ := stepInstruction_cases h
  · obtain rfl : _ = f := Option.some.inj hf
    exact ⟨rfl, rfl⟩
  · obtain ⟨ht, hfr⟩ := exec_latches (s := s.beginStep.advance) hs hx hf
    have hpc : s.beginStep.advance.pc - 2 = s.pc := BitVec.add_sub_cancel s.pc 2
    rw [hpc] at hfr
    rw [State.raise, hpc] at ht
    exact ⟨ht, hfr⟩

/-! The `[I]` operand's range check (20_memory.md R42), as the two answers of each instruction that makes it. -/

theorem exec_ldB_inside {s : State} (x : Reg) (h : s.I.toNat + 2 ≤ 0xFFF) :
    exec (.ldB x) s = .next (storeDigits (s.v x) s) := by
  rw [exec_ldB, if_pos ((rangeOk_iff s 3).mpr (.inr h))]

theorem exec_ldB_outside {s : State} (x : Reg) (h : 0xFFF < s.I.toNat + 2) :
    exec (.ldB x) s = .next (s.raise .dataWrite s.I) := by
  rw [exec_ldB, if_neg (by rw [rangeOk_iff]; omega)]

theorem exec_storeRegs_inside {s : State} {x : Reg} (h : s.I.toNat + x.val ≤ 0xFFF) :
    exec (.storeRegs x) s = .next (s.storeBlock (regsUpTo x)) := by
  rw [exec_storeRegs, if_pos ((rangeOk_iff s _).mpr (.inr h))]

theorem exec_storeRegs_outside {s : State} {x : Reg} (h : 0xFFF < s.I.toNat + x.val) :
    exec (.storeRegs x) s = .next (s.raise .dataWrite s.I) := by
  rw [exec_storeRegs, if_neg (by rw [rangeOk_iff]; omega)]

theorem exec_loadRegs_inside {s : State} {x : Reg} (h : s.I.toNat + x.val ≤ 0xFFF) :
    exec (.loadRegs x) s = .next (s.loadBlock (regsUpTo x)) := by
  rw [exec_loadRegs, if_pos ((rangeOk_iff s _).mpr (.inr h))]

theorem exec_loadRegs_outside {s : State} {x : Reg} (h : 0xFFF < s.I.toNat + x.val) :
    exec (.loadRegs x) s = .next (s.raise .dataRead s.I) := by
  rw [exec_loadRegs, if_neg (by rw [rangeOk_iff]; omega)]

theorem exec_drw_inside {s : State} (x y : Reg) {n : Fin 16} (h : n.val = 0 ∨ s.I.toNat + n.val - 1 ≤ 0xFFF) :
    exec (.drw x y n) s = .next (drawRows x y n.val (s.setV vf 0)) := by
  rw [exec_drw, if_pos ((rangeOk_iff s _).mpr h)]

theorem exec_drw_outside {s : State} (x y : Reg) {n : Fin 16} (h : ¬(n.val = 0 ∨ s.I.toNat + n.val - 1 ≤ 0xFFF)) :
    exec (.drw x y n) s = .next (s.raise .dataRead s.I) := by
  rw [exec_drw, if_neg (by rw [rangeOk_iff]; exact h)]

/-! The host's Tick and Load. -/

theorem fire_tick {s : State} (h : s.fault = none) : fire .tick s = .next s.tick := by
  simp only [fire, tickEvent, h]

theorem fire_tick_halted {s : State} {f : FaultRecord} (h : s.fault = some f) : fire .tick s = .fault (.halted f) := by
  simp only [fire, tickEvent, h]

/-- A Tick that is performed counts down. -/
theorem eq_tick_of_fire {s t : State} (h : fire .tick s = .next t) : t = s.tick := by
  cases hf : s.fault with
  | none => rw [fire_tick hf] at h; cases h; rfl
  | some f => rw [fire_tick_halted hf] at h; cases h

theorem fire_load {s : State} (m : List Host.Cell) {image : List Byte} (hl : image.length ≤ 3584)
    (hp : s.phase = .awaitingLoad) : fire (.load m image) s = .next (s.loadProgram m image) := by
  simp only [fire, loadEvent, Config.romMax, Nat.not_lt.mpr hl, hp, ite_true, ite_false]

theorem fire_load_tooLong (s : State) (m : List Host.Cell) {image : List Byte} (hl : 3584 < image.length) :
    fire (.load m image) s = .refused .loadError := by
  simp only [fire, loadEvent, Config.romMax, hl, ite_true]

theorem fire_load_late {s : State} (m : List Host.Cell) {image : List Byte} (hl : image.length ≤ 3584)
    (hp : s.phase ≠ .awaitingLoad) : fire (.load m image) s = .refused .loadNotEnabled := by
  simp only [fire, loadEvent, Config.romMax, Nat.not_lt.mpr hl, hp, ite_false]

/-- A Load that is performed writes the launch content. -/
theorem eq_loadProgram_of_fire {s t : State} {m : List Host.Cell} {image : List Byte} (h : fire (.load m image) s = .next t) :
    t = s.loadProgram m image := by
  by_cases hl : image.length ≤ 3584
  · by_cases hp : s.phase = .awaitingLoad
    · rw [fire_load m hl hp] at h; cases h; rfl
    · rw [fire_load_late m hl hp] at h; cases h
  · rw [fire_load_tooLong s m (Nat.not_le.mp hl)] at h; cases h

end Sys2Proof

/-! PROOFS for 60_exceptions.md, 45_unrecognised.md and 10_state.md section 1: what raises, what a fault leaves, which
instruction writes which element, and the diagnostic output. -/

namespace Sys2Proof

open Machine

/-! Unrecognised words (45_unrecognised.md R140) and the diagnostic output (R166). -/

/-- Settles O49: UNDEF is the one write of `diag`. -/
theorem unrecognisedIsNoOperation : Obligations.UnrecognisedIsNoOperation := by
  intro w hw
  refine ⟨decodeWord_of_unrecognised hw, fun s => ⟨_, exec_undef s w, rfl, fun p hp => ?_⟩⟩
  cases p with
  | diag => exact absurd rfl hp
  | _ => rfl

/-- Settles O50: `diag` is 0 at the start of the Step, and UNDEF, which an unrecognised word alone decodes to, is its one
writer. -/
theorem diagOnlyOnUnrecognised : Obligations.DiagOnlyOnUnrecognised := by
  intro s t w hn hw h
  obtain ⟨u, hu, hsu⟩ := step_of_nextIsStep_frame hn
  rw [← fetch_pc_eq_of_frame hsu] at hw
  obtain ⟨_, ⟨hnone, _⟩ | ⟨w', hw', hx⟩⟩ := stepInstruction_cases (hu ▸ h)
  · rw [hw] at hnone; cases hnone
  obtain rfl : w = w' := Option.some.inj (hw.symm.trans hw')
  cases hr : unrecognised w with
  | true =>
    rw [decodeWord_of_unrecognised hr, exec_undef] at hx
    cases hx; rfl
  | false =>
    by_contra hne
    obtain ⟨v, hv⟩ := (exec_writers hx).diag hne
    rw [unrecognised_of_decodeWord hv] at hr
    cases hr

/-! What raises (R151), and what a fault leaves (R154). -/

/-- Settles O51: each meaning answers a next state, on both sides of its test where it has one. -/
theorem everyInstructionCompletes : Obligations.EveryInstructionCompletes := by
  intro i s
  cases i with
  | ret => rw [exec_ret]; split <;> exact ⟨_, rfl⟩
  | call nnn =>
    by_cases h : s.sp.val < 16
    · exact ⟨_, exec_call_room s nnn h⟩
    · exact ⟨_, exec_call_full s nnn h⟩
  | drw x y n => rw [exec_drw]; split <;> exact ⟨_, rfl⟩
  | ldB x => rw [exec_ldB]; split <;> exact ⟨_, rfl⟩
  | storeRegs x => rw [exec_storeRegs]; split <;> exact ⟨_, rfl⟩
  | loadRegs x => rw [exec_loadRegs]; split <;> exact ⟨_, rfl⟩
  | ldVxK x =>
    cases h : s.lowestKey with
    | none => exact ⟨_, exec_ldVxK_none s x h⟩
    | some k => exact ⟨_, exec_ldVxK_some s x h⟩
  | skp _ | sknp _ | cls | jp _ | seImm _ _ | sneImm _ _ | seReg _ _ | ldImm _ _ | addImm _ _ | ldReg _ _ | orReg _ _
  | andReg _ _ | xorReg _ _ | addReg _ _ | sub _ _ | shr _ | subn _ _ | shl _ | sneReg _ _ | ldI _ | jpV0 _ | rnd _ _
  | ldVxDT _ | ldDTVx _ | ldSTVx _ | addI _ | undef _ => exact ⟨_, rfl⟩

/-- What the latch holds after a raise. -/
theorem latched_of_raise {s t : State} {c : FaultCause} {info : Word} {f : FaultRecord}
    (h : (.next (s.raise c info) : Result) = .next t) (hf : t.fault = some f) : f.cause = c ∧ f.info = info := by
  cases h; cases hf; exact ⟨rfl, rfl⟩

/-- Settles O53: six instructions test their data, and CALL and RET the depth; each raises on the failing side of its test,
and no other instruction writes the latch. -/
theorem onlyTheseConditionsRaise : Obligations.OnlyTheseConditionsRaise := by
  intro i s t hs h f hf
  have hne : t.fault ≠ s.fault := by rw [hf, hs]; exact Option.some_ne_none f
  cases i with
  | ret =>
    rw [exec_ret] at h
    split at h
    · exact .inl ⟨rfl, ‹_›, latched_of_raise h hf⟩
    · cases h; exact absurd rfl hne
  | call nnn =>
    by_cases hr : s.sp.val < 16
    · rw [exec_call_room s nnn hr] at h; cases h; exact absurd rfl hne
    · rw [exec_call_full s nnn hr] at h
      exact .inr (.inl ⟨nnn, rfl, by omega, latched_of_raise h hf⟩)
  | drw x y n =>
    by_cases hr : n.val = 0 ∨ s.I.toNat + n.val - 1 ≤ 0xFFF
    · obtain ⟨V, fb, hd⟩ := drawRows_shape x y n.val (s.setV vf 0)
      rw [exec_drw_inside x y hr, hd] at h; cases h; exact absurd rfl hne
    · rw [exec_drw_outside x y hr] at h
      exact .inr (.inr (.inl ⟨x, y, n, rfl, by omega, by omega, latched_of_raise h hf⟩))
  | loadRegs x =>
    by_cases hr : s.I.toNat + x.val ≤ 0xFFF
    · obtain ⟨V, hl⟩ := loadBlock_shape s (regsUpTo x)
      rw [exec_loadRegs_inside hr, hl] at h; cases h; exact absurd rfl hne
    · rw [exec_loadRegs_outside (Nat.not_le.mp hr)] at h
      exact .inr (.inr (.inr (.inl ⟨x, rfl, Nat.not_le.mp hr, latched_of_raise h hf⟩)))
  | ldB x =>
    by_cases hr : s.I.toNat + 2 ≤ 0xFFF
    · rw [exec_ldB_inside x hr] at h; cases h; exact absurd rfl hne
    · rw [exec_ldB_outside x (Nat.not_le.mp hr)] at h
      exact .inr (.inr (.inr (.inr (.inl ⟨x, rfl, Nat.not_le.mp hr, latched_of_raise h hf⟩))))
  | storeRegs x =>
    by_cases hr : s.I.toNat + x.val ≤ 0xFFF
    · obtain ⟨m, hm⟩ := storeBlock_shape s (regsUpTo x)
      rw [exec_storeRegs_inside hr, hm] at h; cases h; exact absurd rfl hne
    · rw [exec_storeRegs_outside (Nat.not_le.mp hr)] at h
      exact .inr (.inr (.inr (.inr (.inr (.inl ⟨x, rfl, Nat.not_le.mp hr, latched_of_raise h hf⟩)))))
  | skp x =>
    by_cases hk : (s.v x).toNat < 16
    · rw [exec_skp_key s x ⟨_, hk⟩ rfl] at h; cases h; exact absurd rfl hne
    · rw [exec_skp_noKey s x hk] at h
      obtain ⟨hc, hi⟩ := latched_of_raise h hf
      exact .inr (.inr (.inr (.inr (.inr (.inr ⟨x, .inl rfl, by omega, hc, by rw [hi, zext16OfByte_toNat]⟩)))))
  | sknp x =>
    by_cases hk : (s.v x).toNat < 16
    · rw [exec_sknp_key s x ⟨_, hk⟩ rfl] at h; cases h; exact absurd rfl hne
    · rw [exec_sknp_noKey s x hk] at h
      obtain ⟨hc, hi⟩ := latched_of_raise h hf
      exact .inr (.inr (.inr (.inr (.inr (.inr ⟨x, .inr rfl, by omega, hc, by rw [hi, zext16OfByte_toNat]⟩)))))
  | cls | jp _ | seImm _ _ | sneImm _ _ | seReg _ _ | ldImm _ _ | addImm _ _ | ldReg _ _ | orReg _ _ | andReg _ _
  | xorReg _ _ | addReg _ _ | sub _ _ | shr _ | subn _ _ | shl _ | sneReg _ _ | ldI _ | jpV0 _ | rnd _ _ | ldVxDT _
  | ldVxK _ | ldDTVx _ | ldSTVx _ | addI _ | undef _ =>
    exact absurd (exec_keeps_fault h rfl nofun nofun) hne

/-- Settles O52: the exception is taken on the Step's own start, which has the state's elements. -/
theorem faultingStepIsPrecise : Obligations.FaultingStepIsPrecise := by
  intro s t f hn _ h hf
  obtain ⟨u, hu, hsu⟩ := step_of_nextIsStep_frame hn
  obtain ⟨rfl, hfr⟩ := stepInstruction_latches (hu ▸ h) hf
  have hpc : u.pc = s.pc := hsu .pc (by decide)
  refine ⟨by rw [hfr], by rw [hfr, hpc], ?_⟩
  exact ((hsu.trans (changesOnly_beginStep u)).mono fun _ => .inr).trans
    ((changesOnly_takeException_pc u.beginStep f.cause f.info).mono fun _ => .inl)

/-- Settles O54: Step and Tick look at the latch first, and of the other events only Reset writes it. -/
theorem haltedUntilReset : Obligations.HaltedUntilReset := by
  intro s f hf
  refine ⟨fun hi => ?_, fun r => ?_, fire_tick_halted hf, fun e t he h => ?_⟩
  · rw [step_empty hi, stepInstruction_halted (s := s.drawRandom) hf]
  · exact stepInstruction_halted (s := s.supplyRandom r) hf
  · cases e with
    | reset => exact absurd rfl he
    | load m image => rw [eq_loadProgram_of_fire h]; exact hf
    | step r => rw [fire, stepInstruction_halted (s := s.supplyRandom r) hf] at h; cases h
    | tick => rw [fire_tick_halted hf] at h; cases h
    | keySet k b => cases h; exact hf
    | observe => cases h; exact hf

/-! The elements and their writers (10_state.md section 1). -/

/-- Settles O55: each column entry is a field of `Writers`; a slot, pixel, level or byte is a reading of its element. -/
theorem elementsHaveTheirWriters : Obligations.ElementsHaveTheirWriters := by
  intro i s t h
  have hw := exec_writers h
  exact ⟨hw.I, hw.sp, fun ⟨k, hk⟩ => hw.stack fun he => hk (by rw [State.slot, State.slot, he]), hw.DT, hw.ST,
    fun ⟨r, c, hp⟩ => hw.fb fun he => hp (by rw [State.pixel, State.pixel, he]),
    fun k => by rw [State.keyDown, State.keyDown, hw.key],
    fun ⟨a, ha⟩ => hw.mem fun he => ha (by rw [State.byteAt, State.byteAt, he]), hw.pc⟩

/-- Settles O56: the jump writes to `pc` the address that the Step began at. -/
theorem selfJumpRests : Obligations.SelfJumpRests := by
  intro s a hs hn ha hw
  obtain ⟨u, hu, hsu⟩ := step_of_nextIsStep_frame hn
  have hpc : zext16OfAddr a = u.pc := by
    rw [show u.pc = s.pc from hsu .pc (by decide)]
    exact BitVec.eq_of_toNat_eq ((zext16OfAddr_toNat a).trans ha.symm)
  have hfault : u.fault = none := (hsu .fault (by decide)).trans hs
  refine ⟨u.beginStep, ?_, hsu.trans (changesOnly_beginStep u)⟩
  rw [hu, stepInstruction_run hfault ((fetch_pc_eq_of_frame hsu).trans hw), decodeWord_encodeWord rfl, exec_jp, hpc]
  rfl

end Sys2Proof

/-! PROOFS of the invariants: memory's canonical form (20_memory.md R30), the bounds of `pc` and of the return addresses
(10_state.md R13, 40_flow.md R70, R72, R77), and the truth of a latched record (60_exceptions.md R151). -/

namespace Sys2Proof

open Machine

/-! Memory. -/

theorem storeDigits_keeps_memCanonical {s : State} (hs : MemCanonical s) (hr : s.I.toNat + 2 ≤ 0xFFF) (b : Byte) :
    MemCanonical (storeDigits b s) := by
  have hlt : ∀ k ≤ 2, s.ea k < Config.memSize := fun k hk => by simp only [State.ea, Config.memSize]; omega
  exact Memory.wf_write (Memory.wf_write (Memory.wf_write hs (hlt 0 (by omega)) _) (hlt 1 (by omega)) _) (hlt 2 (by omega)) _

theorem storeBlock_keeps_memCanonical {s : State} (hs : MemCanonical s) {x : Reg} (hr : s.I.toNat + x.val ≤ 0xFFF) :
    MemCanonical (s.storeBlock (regsUpTo x)) := by
  refine storeBlock_wf s _ hs fun r hrx => ?_
  have hle : r.val ≤ x.val := (mem_regsUpTo x r).mp hrx
  simp only [State.ea, Config.memSize]; omega

/-- The two instructions that write memory have checked their range. -/
theorem exec_keeps_memCanonical {i : Instr} {s t : State} (hs : MemCanonical s) (h : exec i s = .next t) : MemCanonical t := by
  by_cases hm : t.mem = s.mem
  · rw [MemCanonical, hm]; exact hs
  obtain ⟨x, rfl⟩ | ⟨x, rfl⟩ := (exec_writers h).mem hm
  · by_cases hr : s.I.toNat + 2 ≤ 0xFFF
    · rw [exec_ldB_inside x hr] at h; cases h; exact storeDigits_keeps_memCanonical hs hr _
    · rw [exec_ldB_outside x (Nat.not_le.mp hr)] at h; cases h; exact hs
  · by_cases hr : s.I.toNat + x.val ≤ 0xFFF
    · rw [exec_storeRegs_inside hr] at h; cases h; exact storeBlock_keeps_memCanonical hs hr
    · rw [exec_storeRegs_outside (Nat.not_le.mp hr)] at h; cases h; exact hs

theorem stepInstruction_keeps_memCanonical {s t : State} (hs : MemCanonical s) (h : stepInstruction s = .next t) :
    MemCanonical t := by
  obtain ⟨_, ⟨_, rfl⟩ | ⟨w, _, hx⟩⟩ := stepInstruction_cases h
  · exact hs
  · exact exec_keeps_memCanonical (s := s.beginStep.advance) hs hx

theorem loadProgram_memCanonical (s : State) (m : List Host.Cell) {image : List Byte} (hl : image.length ≤ 3584) :
    MemCanonical (s.loadProgram m image) :=
  Memory.wf_writeBytes (Memory.wf_ofCells m) _ image (by simp only [Config.loadBase, Config.memSize]; omega)

/-- Settles O57: of the events, only a Step and a Load write memory. -/
theorem stepKeepsMemoryCanonical : Obligations.StepKeepsMemoryCanonical := by
  intro s t hs h
  obtain h | ⟨r, h⟩ | rfl | ⟨m, image, hl, _, rfl⟩ | ⟨_, rfl⟩ | ⟨k, b, rfl⟩ | rfl := step_cases h
  · exact stepInstruction_keeps_memCanonical (s := s.drawRandom) hs h
  · exact stepInstruction_keeps_memCanonical (s := s.dropInput.supplyRandom r) hs h
  · exact hs
  · exact loadProgram_memCanonical _ m hl
  · exact hs
  · exact hs
  · exact hs

/-! The program counter and the return addresses. -/

theorem zext16OfAddr_le (a : Addr12) : (zext16OfAddr a).toNat ≤ 0x10FE := by
  have := a.isLt
  rw [zext16OfAddr_toNat]; omega

/-- The largest target of JP V0 (40_flow.md R77). -/
theorem zext16OfAddr_add_zext16OfByte_le (a : Addr12) (b : Byte) : (zext16OfAddr a + zext16OfByte b).toNat ≤ 0x10FE := by
  have := a.isLt; have := b.isLt
  rw [zext16OfAddr_add_zext16OfByte_toNat]; omega

/-- Where an instruction leaves `pc`: where it was, past a skipped instruction, back at its own address, at a jump's target
or at the top return address. -/
theorem exec_pc {i : Instr} {s t : State} (hs : s.fault = none) (h : exec i s = .next t) :
    t.pc = s.pc ∨ t.pc = s.pc + 2 ∨ t.pc = s.pc - 2 ∨ t.pc.toNat ≤ 0x10FE ∨ (s.sp.val ≠ 0 ∧ t.pc = s.top) := by
  cases hf : t.fault with
  | some f =>
    rw [(exec_latches hs h hf).1]
    exact .inr (.inr (.inl rfl))
  | none =>
    by_cases hk : t.pc = s.pc
    · exact .inl hk
    obtain ⟨nnn, rfl | rfl | rfl⟩ | rfl | ⟨x, kk, rfl | rfl⟩ | ⟨x, y, rfl | rfl⟩ | ⟨x, rfl | rfl | rfl⟩ :=
      (exec_writers h).pc hs hf hk
    · rw [exec_jp] at h; cases h
      exact .inr (.inr (.inr (.inl (zext16OfAddr_le nnn))))
    · by_cases hr : s.sp.val < 16
      · rw [exec_call_room s nnn hr] at h; cases h
        exact .inr (.inr (.inr (.inl (zext16OfAddr_le nnn))))
      · rw [exec_call_full s nnn hr] at h; cases h; cases hf
    · rw [exec_jpV0] at h; cases h
      exact .inr (.inr (.inr (.inl (zext16OfAddr_add_zext16OfByte_le nnn (s.v 0)))))
    · rw [exec_ret] at h
      split at h
      · cases h; cases hf
      · cases h; exact .inr (.inr (.inr (.inr ⟨‹_›, rfl⟩)))
    · rw [exec_seImm] at h; cases h; exact (ite_eq_or_eq _ _ _).symm.imp_right .inl
    · rw [exec_sneImm] at h; cases h; exact (ite_eq_or_eq _ _ _).symm.imp_right .inl
    · rw [exec_seReg] at h; cases h; exact (ite_eq_or_eq _ _ _).symm.imp_right .inl
    · rw [exec_sneReg] at h; cases h; exact (ite_eq_or_eq _ _ _).symm.imp_right .inl
    · by_cases hv : (s.v x).toNat < 16
      · rw [exec_skp_key s x ⟨_, hv⟩ rfl] at h; cases h; exact (ite_eq_or_eq _ _ _).symm.imp_right .inl
      · rw [exec_skp_noKey s x hv] at h; cases h; cases hf
    · by_cases hv : (s.v x).toNat < 16
      · rw [exec_sknp_key s x ⟨_, hv⟩ rfl] at h; cases h; exact (ite_eq_or_eq _ _ _).imp_right .inl
      · rw [exec_sknp_noKey s x hv] at h; cases h; cases hf
    · cases hl : s.lowestKey with
      | none => rw [exec_ldVxK_none s x hl] at h; cases h; exact .inr (.inr (.inl rfl))
      | some k => rw [exec_ldVxK_some s x hl] at h; cases h; exact absurd rfl hk

/-- A live return address after an instruction is one from before it, or the address after a CALL (R70, R72). -/
theorem exec_slot {i : Instr} {s t : State} (h : exec i s = .next t) {k : Fin 16} (hk : k.val < t.sp.val) :
    t.slot k = s.pc ∨ (k.val < s.sp.val ∧ t.slot k = s.slot k) := by
  by_cases hcr : i = .ret ∨ ∃ nnn, i = .call nnn
  · obtain rfl | ⟨nnn, rfl⟩ := hcr
    · rw [exec_ret] at h
      split at h
      · cases h; exact .inr ⟨hk, rfl⟩
      · cases h
        exact .inr ⟨lt_of_lt_of_le hk (Nat.sub_le _ _), rfl⟩
    · by_cases hr : s.sp.val < 16
      · rw [exec_call_room s nnn hr] at h; cases h
        rw [State.setPc_slot, State.push_slot]
        have hk : k.val < s.sp.val + 1 := hk
        split
        · exact .inl rfl
        · exact .inr ⟨by omega, rfl⟩
      · rw [exec_call_full s nnn hr] at h; cases h; exact .inr ⟨hk, rfl⟩
  · obtain ⟨hr, hc⟩ := not_or.mp hcr
    obtain ⟨hsp, hslot⟩ := exec_keeps_stack h (fun n hn => hc ⟨n, hn⟩) hr
    exact .inr ⟨hsp ▸ hk, hslot k⟩

/-- An instruction fetched inside memory, so with `pc` in 0x002..0x1000 after the advance, keeps the bounds. -/
theorem exec_keeps_pcBounded {i : Instr} {s t : State} (hs : s.fault = none) (hb : PcBounded s) (h2 : 2 ≤ s.pc.toNat)
    (hle : s.pc.toNat ≤ 0x1000) (h : exec i s = .next t) : PcBounded t := by
  refine ⟨?_, fun k hk => ?_⟩
  · obtain hp | hp | hp | hp | ⟨hsp, hp⟩ := exec_pc hs h
    · rw [hp]; exact hb.1
    · rw [hp]; bv_omega
    · rw [hp]; bv_omega
    · exact hp
    · have hlt : s.sp.val - 1 < s.sp.val := by omega
      have htop := hb.2 ⟨s.sp.val - 1, by omega⟩ hlt
      rw [hp, State.top]; omega
  · obtain hp | ⟨hlt, hp⟩ := exec_slot h hk
    · rw [hp]; exact ⟨h2, hle⟩
    · rw [hp]; exact hb.2 k hlt

theorem stepInstruction_keeps_pcBounded {s t : State} (hb : PcBounded s) (h : stepInstruction s = .next t) :
    PcBounded t := by
  obtain ⟨hs, ⟨_, rfl⟩ | ⟨w, hw, hx⟩⟩ := stepInstruction_cases h
  · exact hb
  · have hpc : s.pc.toNat ≤ 0xFFE := Nat.not_lt.mp fun hlt => by rw [(fetch_eq_none_iff _).mpr hlt] at hw; cases hw
    have hadv : s.beginStep.advance.pc.toNat = s.pc.toNat + 2 :=
      BitVec.toNat_add_of_lt (show s.pc.toNat + (2#16).toNat < 2 ^ 16 by simp; omega)
    exact exec_keeps_pcBounded (s := s.beginStep.advance) hs ⟨by omega, hb.2⟩ (by omega) (by omega) hx

/-- Reset puts `pc` at 0x200 and empties the stack (70_reset_and_hazards.md R180). -/
theorem resetEvent_pcBounded (s : State) : PcBounded s.resetEvent :=
  ⟨show (0x200 : Word).toNat ≤ 0x10FE by decide, fun _ hk => absurd hk (Nat.not_lt_zero _)⟩

/-- Settles O58: of the events, only a Step and Reset write `pc` or the stack. -/
theorem stepKeepsPcBounded : Obligations.StepKeepsPcBounded := by
  intro s t hs h
  obtain h | ⟨r, h⟩ | rfl | ⟨m, image, _, _, rfl⟩ | ⟨_, rfl⟩ | ⟨k, b, rfl⟩ | rfl := step_cases h
  · exact stepInstruction_keeps_pcBounded (s := s.drawRandom) hs h
  · exact stepInstruction_keeps_pcBounded (s := s.dropInput.supplyRandom r) hs h
  · exact resetEvent_pcBounded _
  · exact hs
  · exact hs
  · exact hs
  · exact hs

/-! The latch. -/

/-- With nothing latched there is no record to be true. -/
theorem latchTruthful_of_none {s : State} (h : s.fault = none) : LatchTruthful s := by
  intro f hf
  rw [h] at hf; cases hf

/-- An instruction's raise latches its own condition (R151), which holds of the state it leaves. -/
theorem exec_latchTruthful {i : Instr} {s t : State} (hs : s.fault = none) (h : exec i s = .next t) : LatchTruthful t := by
  intro f hf
  have hcond := onlyTheseConditionsRaise i s t hs h f hf
  obtain ⟨rfl, hfr⟩ := exec_latches hs h hf
  refine ⟨by rw [hfr], by rw [hfr]; rfl, ?_⟩
  obtain ⟨_, hd, hc, hi⟩ | ⟨_, _, hd, hc, hi⟩ | ⟨_, _, n, _, _, hd, hc, hi⟩ | ⟨x, _, hd, hc, hi⟩ | ⟨_, _, hd, hc, hi⟩ |
    ⟨x, _, hd, hc, hi⟩ | ⟨x, _, hd, hc, hi⟩ := hcond
  · rw [hc]; exact ⟨hi, hd⟩
  · rw [hc]; exact ⟨hi, hd⟩
  · rw [hc]; exact ⟨hi, show 0xFFF < s.I.toNat + 15 by omega⟩
  · rw [hc]; exact ⟨hi, show 0xFFF < s.I.toNat + 15 by omega⟩
  · rw [hc]; exact ⟨hi, show 0xFFF < s.I.toNat + 15 by omega⟩
  · rw [hc]; exact ⟨hi, show 0xFFF < s.I.toNat + 15 by omega⟩
  · rw [hc]; exact ⟨by omega, x, BitVec.eq_of_toNat_eq (hi.trans (zext16OfByte_toNat _).symm)⟩

theorem stepInstruction_latchTruthful {s t : State} (h : stepInstruction s = .next t) : LatchTruthful t := by
  obtain ⟨hs, ⟨hw, rfl⟩ | ⟨w, _, hx⟩⟩ := stepInstruction_cases h
  · rintro f ⟨⟩
    exact ⟨rfl, rfl, rfl, (fetch_eq_none_iff _).mp hw⟩
  · exact exec_latchTruthful (s := s.beginStep.advance) hs hx

/-- Settles O59: of the events, only a Step latches, and only a Step and Reset write what a record speaks of. -/
theorem stepKeepsLatchTruthful : Obligations.StepKeepsLatchTruthful := by
  intro s t hs h
  obtain h | ⟨r, h⟩ | rfl | ⟨m, image, _, _, rfl⟩ | ⟨hn, rfl⟩ | ⟨k, b, rfl⟩ | rfl := step_cases h
  · exact stepInstruction_latchTruthful h
  · exact stepInstruction_latchTruthful h
  · exact latchTruthful_of_none rfl
  · exact hs
  · exact latchTruthful_of_none hn
  · exact hs
  · exact hs

/-- Settles O60: reset has an empty memory list, an empty stack, `pc` at 0x200 and nothing latched. -/
theorem invariantsAtReset : Obligations.InvariantsAtReset :=
  ⟨reset_mem_wf, resetEvent_pcBounded State.reset, latchTruthful_of_none rfl, rfl⟩

end Sys2Proof

/-! PROOFS for 00_scope.md, 20_memory.md section 1, 60_exceptions.md sections 5 and 6 and 70_reset_and_hazards.md: a Step,
and each other event of the host. -/

namespace Sys2Proof

open Machine

/-! The queue (00_scope.md R2, R5) and the Step (R3). -/

theorem dropInput_eq {s : State} {e : HostEvent} {rest : List HostEvent} (h : s.inputs = e :: rest) :
    s.dropInput = { s with inputs := rest } := by
  rw [State.dropInput, h]; rfl

/-- An event that is performed leaves what the host has queued. -/
theorem fire_inputs {e : HostEvent} {s t : State} (h : fire e s = .next t) : t.inputs = s.inputs := by
  cases e with
  | reset => cases h; rfl
  | load m image => rw [eq_loadProgram_of_fire h]; rfl
  | step r =>
    obtain ⟨_, ⟨_, rfl⟩ | ⟨w, _, hx⟩⟩ := stepInstruction_cases h
    · rfl
    · exact exec_inputs (s := (s.supplyRandom r).beginStep.advance) hx
  | tick => rw [eq_tick_of_fire h]; rfl
  | keySet k b => cases h; rfl
  | observe => cases h; rfl

/-- Settles O2: the step takes the oldest event off and performs it, and the event leaves the rest. -/
theorem queuedEventIsPerformed : Obligations.QueuedEventIsPerformed := by
  intro s e rest hi
  have hstep : step s = fire e { s with inputs := rest } := by rw [step_queued hi, dropInput_eq hi]
  exact ⟨hstep, fun t h => fire_inputs (s := { s with inputs := rest }) (hstep ▸ h)⟩

/-- A Step runs the instruction that the two bytes at `pc` decode to. -/
theorem stepInstruction_decoded {s : State} {i : Instr} (hf : s.fault = none) (hpc : s.pc.toNat ≤ 0xFFE)
    (hd : decode [s.byteAt s.pc.toNat, s.byteAt (s.pc.toNat + 1)] = .ok (i, [])) :
    stepInstruction s = exec i s.beginStep.advance := by
  cases hd
  exact stepInstruction_run hf (fetch_of_le hpc)

/-- Settles O1: the Step of a queued `Step(r)`, and the Step with a free byte. -/
theorem stepRunsDecodedInstruction : Obligations.StepRunsDecodedInstruction := by
  intro s i hf hpc hd
  refine ⟨fun r rest hi => ?_, fun hi => ?_⟩
  · rw [step_queued hi, dropInput_eq hi]
    exact stepInstruction_decoded (s := { s with inputs := rest, rand := r }) hf hpc hd
  · rw [step_empty hi]
    exact stepInstruction_decoded (s := s.drawRandom) hf hpc hd

/-- Settles O33: a Step writes `rand`, from the queue or from the source, before anything reads it. -/
theorem oldRandomByteIsNotUsed : Obligations.OldRandomByteIsNotUsed := by
  intro s a
  refine ⟨fun hi => ?_, fun r rest hi => ?_⟩
  · rw [step_empty hi, step_empty (s := { s with rand := a }) hi]; rfl
  · rw [step_queued hi, step_queued (s := { s with rand := a }) hi]; rfl

/-! The fetch (20_memory.md R32). -/

/-- Settles O3: the bytes are those that were joined, and with none to join the Step takes the FETCH exception at `pc`. -/
theorem fetchIsBigEndianOrFaults : Obligations.FetchIsBigEndianOrFaults := by
  refine ⟨fun s a ha => ⟨_, fetch_of_le ha, highByte_joinBytes _ _, lowByte_joinBytes _ _⟩,
    fun s a ha => (fetch_eq_none_iff a).mpr ha, fun s hs hn hpc => ?_⟩
  obtain ⟨u, hu, hsu⟩ := step_of_nextIsStep_frame hn
  have hupc : u.pc = s.pc := hsu .pc (by decide)
  have hufault : u.fault = none := (hsu .fault (by decide)).trans hs
  have hw : u.fetch u.pc = none := (fetch_eq_none_iff _).mpr (hupc ▸ hpc)
  refine ⟨_, hu.trans (stepInstruction_noFetch hufault hw), by rw [hupc]; rfl, ?_⟩
  exact ((hsu.trans (changesOnly_beginStep u)).mono fun _ => .inr).trans
    ((changesOnly_takeException_pc u.beginStep .fetch u.pc).mono fun _ => .inl)

/-! A word placed to be run next (log 10). -/

theorem withFetchWord_eq (s : State) (w : Word) : s.withFetchWord 16 w.toNat = placeWord s w := by
  rw [State.withFetchWord, Nat.mod_eq_of_lt w.isLt, BitVec.ofNat_toNat, BitVec.setWidth_eq]

theorem placePc_le (s : State) : (placePc s).toNat ≤ 0xFFE := by
  unfold placePc
  split
  · decide
  · omega

theorem placePc_of_le {s : State} (h : s.pc.toNat ≤ 0xFFE) : placePc s = s.pc := by
  rw [placePc, if_neg (Nat.not_lt.mpr h)]

theorem placeWord_byteAt (s : State) (w : Word) (a : Nat) :
    (placeWord s w).byteAt a = if a = (placePc s).toNat + 1 then lowByte w else
      if a = (placePc s).toNat then highByte w else s.byteAt a := by
  simp only [State.byteAt, placeWord, Memory.read_write]

theorem placeWord_fetch (s : State) (w : Word) : (placeWord s w).fetch (placeWord s w).pc = some w := by
  have hpc : (placeWord s w).pc = placePc s := rfl
  rw [hpc, fetch_of_le (placePc_le s), placeWord_byteAt, placeWord_byteAt, if_neg (by omega), if_pos rfl, if_pos rfl,
    joinBytes_high_low]

/-- Placing a word at a `pc` that can be fetched from writes its two bytes alone, and drops what is queued. -/
theorem changesOnly_placeWord {s : State} (w : Word) (hf : s.fault = none) (hpc : s.pc.toNat ≤ 0xFFE) :
    ChangesOnly (fun p => p = .mem s.pc.toNat ∨ p = .mem (s.pc.toNat + 1) ∨ p.architectural = false) s (placeWord s w) := by
  intro p hp
  cases p with
  | pc => exact placePc_of_le hpc
  | fault => exact hf.symm
  | inputs => exact absurd (.inr (.inr rfl)) hp
  | mem a =>
    obtain ⟨h0, h12⟩ := not_or.mp hp
    have h1 : ¬_ := fun h => h12 (.inl h)
    rw [SameAt, placeWord_byteAt, placePc_of_le hpc, if_neg fun h => h1 (by rw [h]), if_neg fun h => h0 (by rw [h])]
  | _ => rfl

/-- Settles O4: nothing is queued and nothing latched, so the next step fetches the word that was placed. -/
theorem placedWordRunsNext : Obligations.PlacedWordRunsNext := by
  intro s w
  rw [withFetchWord_eq]
  have hnext : ChangesOnly (fun p => p = .pc ∨ p.architectural = false) (placeWord s w)
      (placeWord s w).drawRandom.beginStep.advance := by
    intro p hp
    cases p with
    | pc => exact absurd (.inl rfl) hp
    | rand | draws | diag | phase => exact absurd (.inr rfl) hp
    | _ => rfl
  refine ⟨(placeWord s w).drawRandom.beginStep.advance, ?_, rfl, hnext, fun hf hpc => ?_⟩
  · rw [step_empty rfl]
    exact stepInstruction_run (s := (placeWord s w).drawRandom) rfl (placeWord_fetch s w)
  · exact ((changesOnly_placeWord w hf hpc).mono fun _ => .inr ∘ .imp_right fun h => h).trans
      (hnext.mono fun _ h => h.imp_right fun h => .inr (.inr h))

/-! Reset (70_reset_and_hazards.md R180). -/

/-- Settles O5: each element as `State.reset` writes it. -/
theorem resetStateValues : Obligations.ResetStateValues := by
  refine ⟨fun r => ?_, rfl, rfl, fun k => ?_, rfl, rfl, rfl, fun row col => ?_, fun k => ?_, rfl⟩
  · simp [State.v, State.reset, Vector.get_eq_getElem]
  · simp [State.slot, State.reset, Vector.get_eq_getElem]
  · simp [State.pixel, State.reset, Vector.get_eq_getElem]
  · simp [State.keyDown, State.reset, Vector.get_eq_getElem]

/-- Settles O6: the event leaves the reset state but for memory and the model's own fields. -/
theorem resetEventFromAnyState : Obligations.ResetEventFromAnyState :=
  fun _ => ⟨_, rfl, resetStateValues, fun _ => rfl⟩

/-! Load (70_reset_and_hazards.md R182). -/

/-- Where the image lies, memory has the image's bytes. -/
theorem loadProgram_byteAt_image (s : State) (m : List Host.Cell) {image : List Byte} {k : Nat} (hk : k < image.length) :
    (s.loadProgram m image).byteAt (0x200 + k) = image[k] := by
  have hin : Config.loadBase ≤ 0x200 + k ∧ 0x200 + k - Config.loadBase < image.length := by
    simp only [Config.loadBase]; omega
  rw [State.byteAt, State.loadProgram_mem, Memory.read_writeBytes, dif_pos hin]
  simp only [Config.loadBase, Nat.add_sub_cancel_left]

/-- Elsewhere it has those of `MEM_INIT`. -/
theorem loadProgram_byteAt_init (s : State) (m : List Host.Cell) {image : List Byte} {a : Nat}
    (h : a < 0x200 ∨ 0x200 + image.length ≤ a) : (s.loadProgram m image).byteAt a = (Memory.ofCells m).read a := by
  have hout : ¬(Config.loadBase ≤ a ∧ a - Config.loadBase < image.length) := by
    simp only [Config.loadBase]; omega
  rw [State.byteAt, State.loadProgram_mem, Memory.read_writeBytes, dif_neg hout]

theorem changesOnly_loadProgram (s : State) (m : List Host.Cell) (image : List Byte) :
    ChangesOnly (fun p => p = .phase ∨ ∃ a, p = .mem a) s (s.loadProgram m image) := by
  intro p hp
  cases p with
  | phase => exact absurd (.inl rfl) hp
  | mem a => exact absurd (.inr ⟨a, rfl⟩) hp
  | _ => rfl

/-- Settles O7: a Load that is enabled writes the launch content, and the two others are refused. -/
theorem loadPlacesTheImage : Obligations.LoadPlacesTheImage := by
  intro s m image
  refine ⟨fun hl hp => ⟨_, fire_load m hl hp, rfl, fun k hk => loadProgram_byteAt_image s m hk, fun a ha hout => ?_,
    changesOnly_loadProgram s m image⟩, fire_load_tooLong s m, fire_load_late m⟩
  rw [loadProgram_byteAt_init s m hout, Memory.read_ofCells m ha]

/-! The timers (60_exceptions.md R160, R161, R162). -/

theorem changesOnly_tick (s : State) : ChangesOnly (fun p => p = .DT ∨ p = .ST) s s.tick := by
  intro p hp
  cases p with
  | DT => exact absurd (.inl rfl) hp
  | ST => exact absurd (.inr rfl) hp
  | _ => rfl

/-- Settles O8: Tick counts both timers down, where nothing is latched. -/
theorem tickCountsTimersDown : Obligations.TickCountsTimersDown := fun s =>
  ⟨fun hf => ⟨_, fire_tick hf, countDown_toNat s.DT, countDown_toNat s.ST, changesOnly_tick s⟩, fun _ => fire_tick_halted⟩

/-- Settles O9, by induction on the number of Ticks. -/
theorem timersReachZeroAndStay : Obligations.TimersReachZeroAndStay := by
  intro n s
  induction n with
  | zero => exact ⟨rfl, rfl⟩
  | succ n ih =>
    obtain ⟨hdt, hst⟩ := ih
    rw [Function.iterate_succ_apply', State.tick_DT, State.tick_ST, countDown_toNat, countDown_toNat, hdt, hst]
    exact ⟨Nat.sub_sub .., Nat.sub_sub ..⟩

/-- Settles O11: the reading is the elements themselves. -/
theorem observeReadsAndChangesNothing : Obligations.ObserveReadsAndChangesNothing :=
  fun _ => ⟨rfl, fun _ _ => rfl, rfl, rfl, bne_iff_ne⟩

/-! The keypad (60_exceptions.md R163). -/

theorem changesOnly_setKey (s : State) (k : Fin 16) (b : Bool) : ChangesOnly (fun p => p = .key k) s (s.setKey k b) := by
  intro p hp
  cases p with
  | key j => rw [SameAt, State.setKey_keyDown, if_neg fun h => hp (by rw [h])]
  | _ => rfl

/-- No Step writes a level: no instruction is a writer of the keypad. -/
theorem stepInstruction_keyDown {s t : State} (h : stepInstruction s = .next t) (j : Fin 16) : t.keyDown j = s.keyDown j := by
  obtain ⟨_, ⟨_, rfl⟩ | ⟨w, _, hx⟩⟩ := stepInstruction_cases h
  · rfl
  · rw [State.keyDown, (exec_writers hx).key]; rfl

/-- Settles O10: KeySet is one write of a level, and the other events but Reset are none. -/
theorem keySetWritesOneLevel : Obligations.KeySetWritesOneLevel := by
  refine ⟨fun s k b => ⟨_, rfl, by rw [State.setKey_keyDown, if_pos rfl], changesOnly_setKey s k b⟩,
    fun s e t hr hk h j => ?_⟩
  cases e with
  | reset => exact absurd rfl hr
  | load m image => rw [eq_loadProgram_of_fire h]; rfl
  | step r => exact stepInstruction_keyDown (s := s.supplyRandom r) h j
  | tick => rw [eq_tick_of_fire h]; rfl
  | keySet k b => exact absurd rfl (hk k b)
  | observe => cases h; rfl

end Sys2Proof

/-! PROOFS for 40_flow.md: calls, returns, their balance, and the register skips (R70, R72, R75, R76, R79). -/

namespace Sys2Proof

open Machine

/-! CALL and RET (R72, R70). -/

theorem changesOnly_push (s : State) (w : Word) (h : s.sp.val < 16) :
    ChangesOnly (fun p => p = .sp ∨ p = .stack ⟨s.sp.val, h⟩) s (s.push w h) := by
  intro p hp
  cases p with
  | sp => exact absurd (.inl rfl) hp
  | stack k =>
    have hk : k.val ≠ s.sp.val := fun hk => hp (.inr (by rw [show k = ⟨s.sp.val, h⟩ from Fin.ext hk]))
    rw [SameAt, State.push_slot, if_neg hk]
  | _ => rfl

theorem changesOnly_pop (s : State) : ChangesOnly (fun p => p = .sp) s s.pop := by
  intro p hp
  cases p with
  | sp => exact absurd rfl hp
  | _ => rfl

/-- What a CALL with room writes. -/
theorem changesOnly_call (s : State) (nnn : Addr12) (h : s.sp.val < 16) :
    ChangesOnly (fun p => p = .pc ∨ p = .sp ∨ p = .stack ⟨s.sp.val, h⟩) s
      ((s.push s.pc h).setPc (zext16OfAddr nnn)) :=
  ((changesOnly_push s s.pc h).mono fun _ => .inr).trans ((changesOnly_setPc _ _).mono fun _ => .inl)

/-- What a RET with an entry to take writes. -/
theorem changesOnly_ret (s : State) : ChangesOnly (fun p => p = .pc ∨ p = .sp) s (s.pop.setPc s.top) :=
  ((changesOnly_pop s).mono fun _ => .inr).trans ((changesOnly_setPc _ _).mono fun _ => .inl)

/-- Settles O20: with room the push and the jump, with none the exception. -/
theorem callPushesReturnAddress : Obligations.CallPushesReturnAddress := by
  refine ⟨decodes_call, fun nnn s => ⟨fun k hk => ?_, fun hfull => ?_⟩⟩
  · have hr : s.sp.val < 16 := hk ▸ k.isLt
    obtain rfl : k = ⟨s.sp.val, hr⟩ := Fin.ext hk
    refine ⟨_, exec_call_room s nnn hr, ?_, rfl, zext16OfAddr_toNat nnn, changesOnly_call s nnn hr⟩
    rw [State.setPc_slot, State.push_slot, if_pos rfl]
  · exact raises_of_exec (exec_call_full s nnn (by omega))

theorem exec_ret_some {s : State} (h : s.sp.val ≠ 0) : exec .ret s = .next (s.pop.setPc s.top) := by
  rw [exec_ret, if_neg h]

/-- The top entry is the slot under `sp`. -/
theorem top_eq_slot {s : State} {k : Fin 16} (h : k.val + 1 = s.sp.val) : s.top = s.slot k := by
  rw [State.top, show (⟨s.sp.val - 1, by omega⟩ : Fin 16) = k from Fin.ext (by simp only; omega)]

/-- Settles O21: with an entry the pop and the jump to it, with none the exception. -/
theorem returnPopsTopEntry : Obligations.ReturnPopsTopEntry := by
  refine ⟨decodes_ret, fun s => ⟨fun k hk => ?_, fun h0 => raises_of_exec (by rw [exec_ret, if_pos h0])⟩⟩
  exact ⟨_, exec_ret_some (by omega), top_eq_slot hk, by rw [State.setPc_sp, State.pop_sp]; omega, changesOnly_ret s⟩

/-! Instructions one after another. -/

theorem execAll_cons {i : Instr} {s t : State} (h : exec i s.advance = .next t) (is : List Instr) :
    execAll (i :: is) s = execAll is t := by
  simp only [execAll, h]

/-- The fetch advance writes `pc` alone. -/
theorem changesOnly_advance (s : State) : ChangesOnly (fun p => p = .pc) s s.advance := changesOnly_setPc s _

/-- A CALL with room, after its fetch. -/
theorem exec_call_advance {s : State} (nnn : Addr12) (h : s.sp.val < 16) :
    ∃ u, exec (.call nnn) s.advance = .next u ∧ u.pc = zext16OfAddr nnn ∧ u.sp.val = s.sp.val + 1 ∧
      (∀ k : Fin 16, u.slot k = if k.val = s.sp.val then s.pc + 2 else s.slot k) ∧
      ChangesOnly (fun p => p = .pc ∨ p = .sp ∨ p = .stack ⟨s.sp.val, h⟩) s u :=
  ⟨_, exec_call_room s.advance nnn h, rfl, rfl, State.push_slot s.advance _ h,
    ((changesOnly_advance s).mono fun _ => .inl).trans (changesOnly_call s.advance nnn h)⟩

/-- A RET with an entry to take, after its fetch. -/
theorem exec_ret_advance {s : State} (h : s.sp.val ≠ 0) :
    ∃ u, exec .ret s.advance = .next u ∧ (∀ k : Fin 16, k.val + 1 = s.sp.val → u.pc = s.slot k) ∧
      u.sp.val = s.sp.val - 1 ∧ ChangesOnly (fun p => p = .pc ∨ p = .sp) s u :=
  ⟨_, exec_ret_some (s := s.advance) h, fun _ hk => top_eq_slot (s := s.advance) hk, rfl,
    ((changesOnly_advance s).mono fun _ => .inl).trans (changesOnly_ret s.advance)⟩

/-! Nested calls and then returns (R79). -/

/-- The call sites after the first are those of the calls nested in it. -/
theorem callSite_succ {s t : State} {a : Addr12} (h : t.pc = zext16OfAddr a) (as : List Addr12) (j : Nat) :
    callSite s (a :: as) (j + 1) = callSite t as j := by
  cases j with
  | zero => exact h.symm
  | succ j => rfl

/-- Nested calls stack up the addresses after their call sites. -/
theorem execAll_calls (targets : List Addr12) (s : State) (h : s.sp.val + targets.length ≤ 16) :
    ∃ t, execAll (targets.map Instr.call) s = .next t ∧ t.sp.val = s.sp.val + targets.length ∧
      (∀ (j : Nat) (k : Fin 16), j < targets.length → k.val = s.sp.val + j → t.slot k = callSite s targets j + 2) ∧
      ChangesOnly (fun p => p = .pc ∨ p = .sp ∨ ∃ k : Fin 16, s.sp.val ≤ k.val ∧ p = .stack k) s t := by
  induction targets generalizing s with
  | nil => exact ⟨s, rfl, rfl, fun _ _ hj => absurd hj (Nat.not_lt_zero _), ChangesOnly.refl _ s⟩
  | cons a as ih =>
    rw [List.length_cons] at h
    have hr : s.sp.val < 16 := by omega
    obtain ⟨u, hu, hupc, husp, huslot, hsu⟩ := exec_call_advance a hr
    obtain ⟨t, ht, htsp, htslot, hut⟩ := ih u (by omega)
    refine ⟨t, ?_, ?_, fun j k hj hk => ?_, (hsu.mono ?_).trans (hut.mono ?_)⟩
    · rw [List.map_cons, execAll_cons hu, ht]
    · rw [htsp, husp, List.length_cons]; omega
    · cases j with
      | zero =>
        have hkeep : t.slot k = u.slot k := hut (.stack k) (by simp; omega)
        rw [hkeep, huslot, if_pos (show k.val = s.sp.val from hk)]; rfl
      | succ j => rw [htslot j k (Nat.lt_of_succ_lt_succ hj) (by omega), callSite_succ hupc]
    · exact fun p => .imp_right (.imp_right fun hp => ⟨_, Nat.le_refl _, hp⟩)
    · exact fun p => .imp_right (.imp_right fun ⟨k, hk, hp⟩ => ⟨k, by omega, hp⟩)

/-- Returns go down the stack, to the last entry they take. -/
theorem execAll_returns (m : Nat) (s : State) (h1 : 1 ≤ m) (h : m ≤ s.sp.val) :
    ∃ t, execAll (List.replicate m Instr.ret) s = .next t ∧ t.sp.val = s.sp.val - m ∧
      (∀ k : Fin 16, k.val + m = s.sp.val → t.pc = s.slot k) ∧ ChangesOnly (fun p => p = .pc ∨ p = .sp) s t := by
  induction m generalizing s with
  | zero => exact absurd h1 (by omega)
  | succ m ih =>
    obtain ⟨u, hu, hupc, husp, hsu⟩ := exec_ret_advance (s := s) (by omega)
    rw [List.replicate_succ, execAll_cons hu]
    cases m with
    | zero => exact ⟨u, rfl, husp, hupc, hsu⟩
    | succ m =>
      obtain ⟨t, ht, htsp, htpc, hut⟩ := ih u (by omega) (by omega)
      exact ⟨t, ht, by omega, fun k hk => (htpc k (by omega)).trans (hsu (.stack k) (by simp)), hsu.trans hut⟩

/-! Calls and returns that pair up, with other instructions between (R79). -/

theorem paired_cons_other {i : Instr} (hc : ∀ n, i ≠ .call n) (hr : i ≠ .ret) (room d : Nat) (is : List Instr) :
    paired room d (i :: is) = paired room d is := by
  cases i with
  | call n => exact absurd rfl (hc n)
  | ret => exact absurd rfl hr
  | _ => rfl

/-- One instruction of a list that pairs up, with `d` calls open above a stack of `b` entries: it leaves those entries, and
does not raise unless it tests its data. -/
theorem exec_paired {room b d : Nat} {i : Instr} {is : List Instr} {s : State} (hb : b + room ≤ 16)
    (hsp : s.sp.val = b + d) (hp : paired room d (i :: is) = true) :
    ∃ t d', exec i s = .next t ∧ t.sp.val = b + d' ∧ paired room d' is = true ∧
      (∀ k : Fin 16, k.val < b → t.slot k = s.slot k) ∧ (raisesOnData i = false → t.fault = s.fault) := by
  by_cases hcr : i = .ret ∨ ∃ nnn, i = .call nnn
  · obtain rfl | ⟨nnn, rfl⟩ := hcr
    · rw [paired, Bool.and_eq_true, decide_eq_true_eq] at hp
      exact ⟨_, d - 1, exec_ret_some (by omega), by rw [State.setPc_sp, State.pop_sp]; omega, hp.2, fun _ _ => rfl,
        fun _ => rfl⟩
    · rw [paired, Bool.and_eq_true, decide_eq_true_eq] at hp
      have hr : s.sp.val < 16 := by omega
      refine ⟨_, d + 1, exec_call_room s nnn hr, by rw [State.setPc_sp, State.push_sp]; omega, hp.2, fun k hk => ?_,
        fun _ => rfl⟩
      rw [State.setPc_slot, State.push_slot, if_neg (by omega)]
  · obtain ⟨hr, hc⟩ := not_or.mp hcr
    have hc : ∀ n, i ≠ .call n := fun n hn => hc ⟨n, hn⟩
    obtain ⟨t, ht⟩ := everyInstructionCompletes i s
    obtain ⟨htsp, htslot⟩ := exec_keeps_stack ht hc hr
    exact ⟨t, d, ht, by rw [htsp, hsp], paired_cons_other hc hr room d is ▸ hp, fun k _ => htslot k,
      fun hd => exec_keeps_fault ht hd hc hr⟩

/-- A list that pairs up, begun with `d` calls open above `b` entries, ends with the `b` entries. -/
theorem execAll_paired {room b : Nat} (hb : b + room ≤ 16) (is : List Instr) (d : Nat) (s : State)
    (hsp : s.sp.val = b + d) (hp : paired room d is = true) :
    ∃ t, execAll is s = .next t ∧ t.sp.val = b ∧ (∀ k : Fin 16, k.val < b → t.slot k = s.slot k) ∧
      ((∀ i ∈ is, raisesOnData i = false) → t.fault = s.fault) := by
  induction is generalizing d s with
  | nil =>
    have hd : d = 0 := by rw [paired] at hp; exact beq_iff_eq.mp hp
    exact ⟨s, rfl, by omega, fun _ _ => rfl, fun _ => rfl⟩
  | cons i is ih =>
    obtain ⟨u, d', hu, husp, hup, huslot, hufault⟩ := exec_paired (s := s.advance) hb hsp hp
    obtain ⟨t, ht, htsp, htslot, htfault⟩ := ih d' u husp hup
    refine ⟨t, by rw [execAll_cons hu, ht], htsp, fun k hk => (htslot k hk).trans (huslot k hk), fun hd => ?_⟩
    rw [htfault fun j hj => hd j (List.mem_cons_of_mem i hj), hufault (hd i List.mem_cons_self)]
    rfl

/-- Settles O22: the calls stack up the addresses after them and the returns take them down; instructions that pair up in
between leave the entry that the last return takes. -/
theorem callReturnBalance : Obligations.CallReturnBalance := by
  refine ⟨fun targets m s h h1 hm => ?_, fun nnn between s hr hp => ?_⟩
  · obtain ⟨u, hu, husp, huslot, hsu⟩ := execAll_calls targets s h
    obtain ⟨t, ht, htsp, htpc, hut⟩ := execAll_returns m u h1 (by omega)
    have hk : s.sp.val + (targets.length - m) < 16 := by omega
    refine ⟨t, by rw [execAll_append _ _ hu, ht], ?_, by omega, hsu.trans (hut.mono fun _ => .imp_right .inl)⟩
    rw [htpc ⟨_, hk⟩ (by simp only; omega), huslot _ ⟨_, hk⟩ (by omega) rfl]
  · obtain ⟨u, hu, _, husp, huslot, hsu⟩ := exec_call_advance nnn hr
    obtain ⟨t, ht, htsp, htslot, htfault⟩ := execAll_paired (b := s.sp.val + 1) (by omega) between 0 u husp hp
    obtain ⟨w, hw, hwpc, hwsp, htw⟩ := exec_ret_advance (s := t) (by omega)
    refine ⟨w, ?_, ?_, Fin.ext (by omega), fun k hk => ?_, fun hd => ?_⟩
    · rw [List.cons_append, execAll_cons hu, execAll_append _ _ ht, execAll_cons hw]; rfl
    · rw [hwpc ⟨s.sp.val, hr⟩ htsp.symm, htslot _ (Nat.lt_succ_self _), huslot, if_pos rfl]
    · have hwslot : w.slot k = t.slot k := htw (.stack k) (by simp)
      rw [hwslot, htslot k (by omega), huslot, if_neg (by omega)]
    · have hwfault : w.fault = t.fault := htw .fault (by simp)
      rw [hwfault, htfault hd]
      exact hsu .fault (by simp)

/-! The register skips (R75, R76). -/

/-- Settles O24: each skip writes `pc`, and the test of its two outcomes is equality of `Vx` and `Vy`. -/
theorem skipOnRegister : Obligations.SkipOnRegister := by
  refine ⟨decodes_seReg, decodes_sneReg, fun x y s =>
    ⟨⟨_, exec_seReg s x y, ?_, changesOnly_setPc s _⟩, ⟨_, exec_sneReg s x y, ?_, changesOnly_setPc s _⟩⟩⟩
  · simp only [State.setPc_pc, beq_iff_eq]
  · simp only [State.setPc_pc, bne_iff_ne, ne_eq, ite_not]

end Sys2Proof

/-! PROOFS for 41_alu.md: the instructions that write VF, each two writes of a register, and the random byte (R93 to R103). -/

namespace Sys2Proof

open Machine

/-! The two orders of writing VF and `V[x]` (R103). -/

/-- The result and then the flag: with `x = 0xF` the result is lost. -/
theorem result_then_vf (s : State) (x : Reg) (b f : Byte) :
    (x ≠ 15 → ((s.setV x b).setV vf f).v x = b) ∧ ((s.setV x b).setV vf f).v 15 = f ∧
      ChangesOnly (fun p => p = .v x ∨ p = .v 15) s ((s.setV x b).setV vf f) := by
  refine ⟨fun hx => ?_, setV_v_same _ vf f, (changesOnly_setV_setV s vf x b f).mono fun _ => Or.symm⟩
  rw [State.setV_v, if_neg (show x ≠ vf from hx), setV_v_same]

/-- The flag and then the result: with `x = 0xF` the flag is lost. -/
theorem vf_then_result (s : State) (x : Reg) (b f : Byte) :
    ((s.setV vf f).setV x b).v x = b ∧ (x ≠ 15 → ((s.setV vf f).setV x b).v 15 = f) ∧
      ChangesOnly (fun p => p = .v x ∨ p = .v 15) s ((s.setV vf f).setV x b) := by
  refine ⟨setV_v_same _ x b, fun hx => ?_, changesOnly_setV_setV s x vf f b⟩
  rw [State.setV_v, if_neg (Ne.symm hx)]
  exact setV_v_same s vf f

/-! The flags (R96, R98, R100). -/

theorem flag_toNat (b : Bool) : (flag b).toNat = b.toNat := by cases b <;> rfl

theorem carryFlag_eq (a b : Byte) : carryFlag a b = if 255 < a.toNat + b.toNat then 1 else 0 := by
  simp only [carryFlag, flag, decide_eq_true_eq]

theorem lowBitFlag_toNat (a : Byte) : (lowBitFlag a).toNat = a.toNat % 2 := by
  rw [lowBitFlag, flag_toNat, ← BitVec.testBit_toNat, Nat.toNat_testBit, Nat.pow_zero, Nat.div_one]

theorem highBitFlag_toNat (a : Byte) : (highBitFlag a).toNat = a.toNat / 128 := by
  have := a.isLt
  rw [highBitFlag, flag_toNat, ← BitVec.testBit_toNat, Nat.toNat_testBit]
  omega

/-- A flag shifted right is gone (R98 with `x = 0xF`). -/
theorem lowBitFlag_shiftRight (a : Byte) : lowBitFlag a >>> 1 = 0 := by
  unfold lowBitFlag
  cases a.getLsbD 0 <;> rfl

/-- A flag shifted left is 2 or 0 (R100 with `x = 0xF`). -/
theorem highBitFlag_shiftLeft (a : Byte) : highBitFlag a <<< 1 = if 128 ≤ a.toNat then 2 else 0 := by
  have := a.isLt
  have hflag := highBitFlag_toNat a
  apply BitVec.eq_of_toNat_eq
  rw [BitVec.toNat_shiftLeft, hflag, Nat.shiftLeft_eq]
  split
  · rw [show a.toNat / 128 = 1 by omega]; rfl
  · rw [show a.toNat / 128 = 0 by omega]; rfl

theorem shiftRight_one_toNat (a : Byte) : (a >>> 1).toNat = a.toNat / 2 := by
  rw [BitVec.toNat_ushiftRight, Nat.shiftRight_eq_div_pow, Nat.pow_one]

theorem shiftLeft_one_toNat (a : Byte) : (a <<< 1).toNat = 2 * a.toNat % 256 := by
  rw [BitVec.toNat_shiftLeft, Nat.shiftLeft_eq, Nat.pow_one, Nat.mul_comm]

/-! The statements. -/

/-- Settles O28: each is its result and then 0 to VF. -/
theorem logicClearsVF : Obligations.LogicClearsVF :=
  ⟨decodes_orReg, decodes_andReg, decodes_xorReg, fun x y s =>
    ⟨⟨_, exec_orReg s x y, result_then_vf s x _ 0⟩, ⟨_, exec_andReg s x y, result_then_vf s x _ 0⟩,
      ⟨_, exec_xorReg s x y, result_then_vf s x _ 0⟩⟩⟩

/-- Settles O29: the carry to VF and then the sum. -/
theorem addSetsCarry : Obligations.AddSetsCarry := by
  refine ⟨decodes_addReg, fun x y s => ?_⟩
  obtain ⟨hsum, hflag, hframe⟩ := vf_then_result s x (s.v x + s.v y) (carryFlag (s.v x) (s.v y))
  exact ⟨_, exec_addReg s x y, by rw [hsum, BitVec.toNat_add], fun hx => (hflag hx).trans (carryFlag_eq _ _), hframe⟩

/-- Settles O30: the not-borrow to VF and then the difference, of which an operand that is VF is the flag. -/
theorem subtractSetsNotBorrow : Obligations.SubtractSetsNotBorrow := by
  refine ⟨decodes_sub, decodes_subn, fun x y s => ⟨fun f hf => ?_, fun f hf => ?_⟩⟩
  · obtain rfl := hf.trans (notBorrowFlag_eq (s.v x) (s.v y)).symm
    exact ⟨_, exec_sub s x y, vf_then_result s x _ _⟩
  · obtain rfl := hf.trans (notBorrowFlag_eq (s.v y) (s.v x)).symm
    exact ⟨_, exec_subn s x y, vf_then_result s x _ _⟩

/-- Settles O31: the bit that drops out to VF and then the shift, of VF itself when `x = 0xF`. -/
theorem shiftSetsDroppedBit : Obligations.ShiftSetsDroppedBit := by
  refine ⟨decodes_shr, decodes_shl, fun x s => ⟨?_, ?_⟩⟩
  · obtain ⟨hres, hflag, hframe⟩ := vf_then_result s x ((if x = vf then lowBitFlag (s.v x) else s.v x) >>> 1)
      (lowBitFlag (s.v x))
    refine ⟨_, exec_shr s x, fun hx => ⟨?_, ?_⟩, fun hx => ?_, hframe⟩
    · rw [hres, if_neg (show x ≠ vf from hx), shiftRight_one_toNat]
    · rw [hflag hx, lowBitFlag_toNat]
    · subst hx
      rw [hres, if_pos (show (15 : Reg) = vf from rfl), lowBitFlag_shiftRight]
  · obtain ⟨hres, hflag, hframe⟩ := vf_then_result s x ((if x = vf then highBitFlag (s.v x) else s.v x) <<< 1)
      (highBitFlag (s.v x))
    refine ⟨_, exec_shl s x, fun hx => ⟨?_, ?_⟩, fun hx => ?_, hframe⟩
    · rw [hres, if_neg (show x ≠ vf from hx), shiftLeft_one_toNat]
    · rw [hflag hx, highBitFlag_toNat]
    · subst hx
      rw [hres, if_pos (show (15 : Reg) = vf from rfl), highBitFlag_shiftLeft]

/-- Settles O32: RND is the one write of the masked byte to `V[x]`. -/
theorem randomIsMasked : Obligations.RandomIsMasked :=
  ⟨decodes_rnd, fun x kk s => ⟨_, exec_rnd s x kk, setV_v_same s x _, changesOnly_setV s x _⟩⟩

end Sys2Proof

/-! PROOFS for 42_index_memory.md and 20_memory.md: the sum in `I`, the blocks and digits at `I`, and what a read gives
(R31, R33, R38, R40, R42, R111 to R114). -/

namespace Sys2Proof

open Machine

/-- Settles O35: ADD I, Vx is the one write of the sum to `I`. -/
theorem addToIndexWraps : Obligations.AddToIndexWraps :=
  ⟨decodes_addI, fun x s =>
    ⟨_, exec_addI s x, by rw [State.setI_I, BitVec.toNat_add, zext16OfByte_toNat], changesOnly_setI s _⟩⟩

/-- Settles O40: the law of memory, on the state. -/
theorem readGivesLastWrite : Obligations.ReadGivesLastWrite :=
  fun s a b d => State.setByte_byteAt s a d b

/-! The digits (R112). -/

theorem hundreds_toNat (b : Byte) : (hundreds b).toNat = b.toNat / 100 := by
  have := b.isLt
  rw [hundreds, BitVec.toNat_ofNat, Nat.mod_eq_of_lt (by omega)]

theorem tens_toNat (b : Byte) : (tens b).toNat = b.toNat / 10 % 10 := by
  rw [tens, BitVec.toNat_ofNat, Nat.mod_eq_of_lt (by omega)]

theorem units_toNat (b : Byte) : (units b).toNat = b.toNat % 10 := by
  rw [units, BitVec.toNat_ofNat, Nat.mod_eq_of_lt (by omega)]

/-- The digits go to three places, one after another. -/
theorem storeDigits_byteAt (b : Byte) (s : State) (a : Nat) :
    (storeDigits b s).byteAt a = if a = s.ea 2 then units b else if a = s.ea 1 then tens b else
      if a = s.ea 0 then hundreds b else s.byteAt a := by
  simp only [storeDigits, State.setByte_byteAt]

theorem changesOnly_storeDigits (b : Byte) (s : State) :
    ChangesOnly (fun p => p = .mem (s.ea 0) ∨ p = .mem (s.ea 1) ∨ p = .mem (s.ea 2)) s (storeDigits b s) :=
  ((changesOnly_setByte s (s.ea 0) _).mono fun _ => .inl).trans
    (((changesOnly_setByte _ (s.ea 1) _).mono fun _ => .inr ∘ .inl).trans
      ((changesOnly_setByte _ (s.ea 2) _).mono fun _ => .inr ∘ .inr))

/-- Settles O36: with the three places inside memory the digits, otherwise the exception. -/
theorem storeDecimalDigits : Obligations.StoreDecimalDigits := by
  refine ⟨decodes_ldB, fun x s => ⟨fun hr => ?_, fun hr => raises_of_exec (exec_ldB_outside x hr)⟩⟩
  have h01 : s.ea 0 ≠ s.ea 1 := by simp only [State.ea]; omega
  have h02 : s.ea 0 ≠ s.ea 2 := by simp only [State.ea]; omega
  have h12 : s.ea 1 ≠ s.ea 2 := by simp only [State.ea]; omega
  refine ⟨_, exec_ldB_inside x hr, ?_, ?_, ?_, changesOnly_storeDigits (s.v x) s⟩
  · rw [storeDigits_byteAt, if_neg h02, if_neg h01, if_pos rfl, hundreds_toNat]
  · rw [storeDigits_byteAt, if_neg h12, if_pos rfl, tens_toNat]
  · rw [storeDigits_byteAt, if_pos rfl, units_toNat]

/-! The register blocks (R113, R114). -/

theorem changesOnly_storeBlock (s : State) (x : Reg) :
    ChangesOnly (fun p => ∃ r, r ≤ x ∧ p = .mem (s.ea r.val)) s (s.storeBlock (regsUpTo x)) := by
  intro p hp
  cases p with
  | mem a =>
    refine (storeBlock_byteAt s _ (regsUpTo_nodup x)).2 a fun r hr ha => hp ⟨r, (mem_regsUpTo x r).mp hr, by rw [ha]⟩
  | _ => obtain ⟨m, hm⟩ := storeBlock_shape s (regsUpTo x); rw [hm]; rfl

theorem changesOnly_loadBlock (s : State) (x : Reg) :
    ChangesOnly (fun p => ∃ r, r ≤ x ∧ p = .v r) s (s.loadBlock (regsUpTo x)) := by
  intro p hp
  cases p with
  | v r => rw [SameAt, loadBlock_v, if_neg fun hr => hp ⟨r, (mem_regsUpTo x r).mp hr, rfl⟩]
  | _ => obtain ⟨V, hV⟩ := loadBlock_shape s (regsUpTo x); rw [hV]; rfl

/-- Settles O37: with the block inside memory the store of each register, otherwise the exception. -/
theorem storeRegisterBlock : Obligations.StoreRegisterBlock := by
  refine ⟨decodes_storeRegs, fun x s => ⟨fun hr => ?_, fun hr => raises_of_exec (exec_storeRegs_outside hr)⟩⟩
  exact ⟨_, exec_storeRegs_inside hr,
    fun r hrx => (storeBlock_byteAt s _ (regsUpTo_nodup x)).1 r ((mem_regsUpTo x r).mpr hrx), changesOnly_storeBlock s x⟩

/-- Settles O38: with the block inside memory the load of each register, otherwise the exception. -/
theorem loadRegisterBlock : Obligations.LoadRegisterBlock := by
  refine ⟨decodes_loadRegs, fun x s => ⟨fun hr => ?_, fun hr => raises_of_exec (exec_loadRegs_outside hr)⟩⟩
  exact ⟨_, exec_loadRegs_inside hr, fun r hrx => by rw [loadBlock_v, if_pos ((mem_regsUpTo x r).mpr hrx)],
    changesOnly_loadBlock s x⟩

/-- Settles O39: the fetch at `I` joins the bytes that the store put at `I` and `I + 1`. -/
theorem storeIsSeenByFetch : Obligations.StoreIsSeenByFetch := by
  intro x s hx hr
  obtain ⟨t, ht, hbytes, _⟩ := (storeRegisterBlock.2 x s).1 hr
  have h0 : t.byteAt s.I.toNat = s.v 0 := hbytes 0 (Fin.zero_le x)
  have h1 : t.byteAt (s.I.toNat + 1) = s.v 1 := hbytes 1 (Fin.le_def.mpr hx)
  have hfetch : t.fetch s.I = some (joinBytes (s.v 0) (s.v 1)) := by rw [fetch_of_le (by omega), h0, h1]
  exact ⟨t, ht, hfetch⟩

end Sys2Proof

/-! PROOFS for 43_display.md: CLS, and DRW pixel by pixel, in closed form, twice, and outside memory (R120, R121, R122). -/

namespace Sys2Proof

open Machine

theorem changesOnly_clearPixels (s : State) :
    ChangesOnly (fun p => ∃ row col, p = .pixel row col) s s.clearPixels := by
  intro p hp
  cases p with
  | pixel row col => exact absurd ⟨row, col, rfl⟩ hp
  | _ => rfl

/-- Settles O41: CLS writes the framebuffer alone. -/
theorem clearScreen : Obligations.ClearScreen :=
  ⟨decodes_cls, fun s => ⟨_, exec_cls s, State.clearPixels_pixel s, changesOnly_clearPixels s⟩⟩

/-! The draw as one sequence of pixels (R121). -/

/-- The first `k` sprite pixels of a draw, row by row: pixel `k` is column `k % 8` of row `k / 8`. -/
def drawPixels (x y : Reg) (s : State) : Nat → State
  | 0 => s
  | k + 1 => drawPixel x y (s.byteAt (s.ea (k / 8))) (k / 8) (k % 8) (drawPixels x y s k)

/-- The columns of one row are the next pixels. -/
theorem drawColumns_eq_drawPixels (x y : Reg) (s : State) (i : Nat) {k : Nat} (hk : k ≤ 8) :
    drawColumns x y (s.byteAt (s.ea i)) i k (drawPixels x y s (8 * i)) = drawPixels x y s (8 * i + k) := by
  induction k with
  | zero => rfl
  | succ k ih =>
    rw [drawColumns, ih (by omega), ← Nat.add_assoc, drawPixels, show (8 * i + k) / 8 = i by omega,
      show (8 * i + k) % 8 = k by omega]

/-- The rows of a draw are eight pixels each. -/
theorem drawRows_eq_drawPixels (x y : Reg) (s : State) (n : Nat) : drawRows x y n s = drawPixels x y s (8 * n) := by
  induction n with
  | zero => rfl
  | succ n ih =>
    obtain ⟨V, fb, hs⟩ := drawRows_shape x y n s
    have hb : (drawRows x y n s).byteAt ((drawRows x y n s).ea n) = s.byteAt (s.ea n) := by rw [hs]; rfl
    rw [drawRows, hb, ih, drawColumns_eq_drawPixels x y s n (Nat.le_refl 8), Nat.mul_succ]

theorem drawPixels_v (x y : Reg) (s : State) (k : Nat) {r : Reg} (hr : r ≠ vf) : (drawPixels x y s k).v r = s.v r := by
  induction k with
  | zero => rfl
  | succ k ih => rw [drawPixels, (drawPixel_spec ..).2.1 r hr, ih]

/-- The state of a draw before its pixel `k`: VF is cleared and the earlier pixels are drawn. -/
def drawState (x y : Reg) (s : State) (k : Nat) : State := drawPixels x y (s.setV vf 0) k

/-- The flag of a draw before its pixel `k`. -/
def drawHit (x y : Reg) (s : State) (k : Nat) : Bool := (drawState x y s k).v vf == 1

theorem drawState_succ (x y : Reg) (s : State) (k : Nat) : drawState x y s (k + 1) =
    drawPixel x y (s.byteAt (s.ea (k / 8))) (k / 8) (k % 8) (drawState x y s k) := rfl

/-- VF is the flag, as a byte. -/
theorem drawState_vf (x y : Reg) (s : State) (k : Nat) :
    (drawState x y s k).v vf = if drawHit x y s k then 1 else 0 := by
  have h01 : (drawState x y s k).v vf = 0 ∨ (drawState x y s k).v vf = 1 := by
    induction k with
    | zero => exact .inl (setV_v_same s vf 0)
    | succ k ih =>
      rw [drawState_succ, (drawPixel_spec ..).1]
      split
      · exact .inr rfl
      · exact ih
  unfold drawHit
  obtain h | h := h01 <;> rw [h] <;> rfl

/-- A coordinate register as the draw has left it: VF is the flag, any other is as it was. -/
theorem drawState_v_toNat (x y : Reg) (s : State) (k : Nat) (r : Reg) :
    ((drawState x y s k).v r).toNat = if r = 15 then (if drawHit x y s k then 1 else 0) else (s.v r).toNat := by
  by_cases hr : r = 15
  · rw [if_pos hr, show r = vf from hr, drawState_vf]
    cases drawHit x y s k <;> rfl
  · rw [if_neg hr, drawState, drawPixels_v _ _ _ _ hr, State.setV_v, if_neg (show r ≠ vf from hr)]

/-- One pixel: the flag and the framebuffer, from those before it. -/
theorem drawState_step (x y : Reg) (s : State) (k : Nat) {row : Fin 32} {col : Fin 64} {bit : Bool}
    (hrow : row.val = ((if y = 15 then (if drawHit x y s k then 1 else 0) else (s.v y).toNat) + k / 8) % 32)
    (hcol : col.val = ((if x = 15 then (if drawHit x y s k then 1 else 0) else (s.v x).toNat) + k % 8) % 64)
    (hbit : bit = (s.byteAt (s.ea (k / 8))).getLsbD (7 - k % 8)) :
    drawHit x y s (k + 1) = (drawHit x y s k || (bit && (drawState x y s k).pixel row col)) ∧
    ∀ r c, (drawState x y s (k + 1)).pixel r c =
      if r = row ∧ c = col then (drawState x y s k).pixel r c ^^ bit else (drawState x y s k).pixel r c := by
  rw [← drawState_v_toNat] at hrow hcol
  obtain rfl : row = spriteRow ((drawState x y s k).v y) (k / 8) := Fin.ext hrow
  obtain rfl : col = spriteCol ((drawState x y s k).v x) (k % 8) := Fin.ext hcol
  obtain ⟨hvf, _, hpixel⟩ :=
    drawPixel_spec x y (s.byteAt (s.ea (k / 8))) (k / 8) (k % 8) (drawState x y s k)
  rw [show spriteBit (s.byteAt (s.ea (k / 8))) (k % 8) = bit from hbit.symm] at hvf hpixel
  refine ⟨?_, hpixel⟩
  rw [drawHit, drawState_succ, hvf]
  split
  · next hb => rw [hb, Bool.or_true]; rfl
  · next hb => rw [Bool.eq_false_of_not_eq_true hb, Bool.or_false]; rfl

/-- What a draw inside memory writes. -/
theorem changesOnly_draw (x y : Reg) (n : Nat) (s : State) :
    ChangesOnly (fun p => p = .v 15 ∨ ∃ r c, p = .pixel r c) s (drawRows x y n (s.setV vf 0)) :=
  ((changesOnly_setV s vf 0).mono fun _ => .inl).trans (drawRows_changesOnly x y n _)

/-- Settles O42: the sequence is the flag and the framebuffer of the draw's own states. -/
theorem drawPixelByPixel : Obligations.DrawPixelByPixel := by
  refine ⟨decodes_drw, fun x y n s hr => ⟨drawHit x y s, fun k r c => (drawState x y s k).pixel r c, ?_, fun _ _ => rfl,
    fun k _ row col bit hrow hcol hbit => drawState_step x y s k hrow hcol hbit, _, exec_drw_inside x y hr, ?_, ?_,
    changesOnly_draw x y n.val s⟩⟩
  · rw [drawHit, drawState, drawPixels, setV_v_same]; rfl
  · rw [drawRows_eq_drawPixels]; exact drawState_vf x y s _
  · rw [drawRows_eq_drawPixels]; exact fun _ _ => rfl

/-! The closed form (R121), and a second draw (R122). -/

/-- The sprite is where it was when the registers, `I` and memory are. -/
theorem spriteAt_congr {s t : State} {x y : Reg} (hx : t.v x = s.v x) (hy : t.v y = s.v y) (hI : t.I = s.I)
    (hmem : ∀ a, t.byteAt a = s.byteAt a) (n : Nat) (r : Fin 32) (c : Fin 64) :
    spriteAt t x y n r c = spriteAt s x y n r c := by
  simp only [spriteAt, hx, hy, hI, hmem]

/-- Settles O43: VF is cleared, which moves no coordinate, and the rows are drawn. -/
theorem drawClosedForm : Obligations.DrawClosedForm := by
  intro x y n s hx hy hr
  have hn : n.val ≤ 32 := by omega
  have hsprite : ∀ r c, spriteAt (s.setV vf 0) x y n.val r c = spriteAt s x y n.val r c :=
    spriteAt_congr (s := s) (t := s.setV vf 0) (by rw [State.setV_v, if_neg (show x ≠ vf from hx)])
      (by rw [State.setV_v, if_neg (show y ≠ vf from hy)]) rfl (fun _ => rfl) n.val
  obtain ⟨hhit, hmiss⟩ := drawRows_vf hx hy hn (s.setV vf 0)
  simp only [State.setV_pixel, hsprite, setV_v_same] at hhit hmiss
  refine ⟨_, exec_drw_inside x y hr, fun r c => ?_, hhit, hmiss, changesOnly_draw x y n.val s⟩
  rw [drawRows_pixel hx hy hn, hsprite, State.setV_pixel]

/-- A draw keeps the sprite where it is: it writes VF and pixels alone. -/
theorem spriteAt_of_draw {s t : State} {x y : Reg} (hx : x ≠ 15) (hy : y ≠ 15)
    (h : ChangesOnly (fun p => p = .v 15 ∨ ∃ r c, p = .pixel r c) s t) (n : Nat) (r : Fin 32) (c : Fin 64) :
    spriteAt t x y n r c = spriteAt s x y n r c :=
  spriteAt_congr (h (.v x) (by simpa using hx)) (h (.v y) (by simpa using hy)) (h .I (by simp)) (fun a => h (.mem a) (by simp))
    n r c

/-- Settles O44: the second draw exclusive-ors the same sprite in, and the pixels it finds lit under the sprite are those
that the first draw lit. -/
theorem drawTwiceRestores : Obligations.DrawTwiceRestores := by
  intro x y n s hx hy hr
  obtain ⟨t, ht, htpixel, _, _, hst⟩ := drawClosedForm x y n s hx hy hr
  have hI : t.I = s.I := hst .I (by simp)
  obtain ⟨u, hu, hupixel, huhit, humiss, _⟩ := drawClosedForm x y n t hx hy (hI ▸ hr)
  simp only [spriteAt_of_draw hx hy hst, htpixel] at hupixel huhit humiss
  refine ⟨t, ht, u, hu, fun r c => by rw [hupixel, Bool.xor_assoc, Bool.xor_self, Bool.xor_false], ?_⟩
  by_cases hon : ∃ r c, s.pixel r c = false ∧ spriteAt s x y n.val r c = true
  · obtain ⟨r, c, hoff, hbit⟩ := hon
    have h1 : u.v 15 = 1 := huhit ⟨r, c, by rw [hoff, hbit]; rfl, hbit⟩
    refine ⟨⟨fun _ => ⟨r, c, hoff, hbit⟩, fun _ => h1⟩, fun h0 => ?_, fun hall => ?_⟩
    · exact absurd (h1.symm.trans h0) (by decide)
    · exact absurd (hbit.symm.trans (hall r c hoff)) (by decide)
  · have hall : ∀ r c, s.pixel r c = false → spriteAt s x y n.val r c = false := fun r c hoff =>
      Bool.eq_false_of_not_eq_true fun hbit => hon ⟨r, c, hoff, hbit⟩
    have h0 : u.v 15 = 0 := humiss fun r c hlit => by
      cases hp : s.pixel r c with
      | false => exact hall r c hp
      | true => simpa [hp] using hlit
    exact ⟨⟨fun h1 => absurd (h0.symm.trans h1) (by decide), fun h => absurd h hon⟩, fun _ => hall, fun _ => h0⟩

/-- Settles O45: the range check comes before VF is cleared. -/
theorem drawOutsideMemoryRaises : Obligations.DrawOutsideMemoryRaises :=
  fun x y _ _ hn hr => raises_of_exec (exec_drw_outside x y (by omega))

end Sys2Proof

/-! PROOFS for 44_keypad_timers.md: the key skips and the wait for a key (R130, R131, R133). -/

namespace Sys2Proof

open Machine

/-- Settles O46: with a key number in `V[x]` each skip writes `pc`, and with another value it is the exception. -/
theorem skipOnKeyLevel : Obligations.SkipOnKeyLevel := by
  refine ⟨decodes_skp, decodes_sknp, fun x s => ⟨fun k hk => ?_, fun hv info hinfo => ?_⟩⟩
  · exact ⟨⟨_, exec_skp_key s x k hk, rfl, changesOnly_setPc s _⟩, ⟨_, exec_sknp_key s x k hk, rfl, changesOnly_setPc s _⟩⟩
  · obtain rfl : info = zext16OfByte (s.v x) := BitVec.eq_of_toNat_eq (hinfo.trans (zext16OfByte_toNat _).symm)
    exact ⟨raises_of_exec (exec_skp_noKey s x (by omega)), raises_of_exec (exec_sknp_noKey s x (by omega))⟩

/-- Settles O47: with no key down `pc` is rewound, else the lowest key is the one that the hypotheses name. -/
theorem waitForKey : Obligations.WaitForKey := by
  refine ⟨decodes_ldVxK, fun x s => ⟨fun hup => ?_, fun k hk hlow => ?_⟩⟩
  · exact ⟨_, exec_ldVxK_none s x ((lowestKey_eq_none s).mpr hup), rfl, changesOnly_setPc s _⟩
  · exact ⟨_, exec_ldVxK_some s x ((lowestKey_eq_some s k).mpr ⟨hk, hlow⟩), by rw [setV_v_same, keyNumber_toNat],
      changesOnly_setV s x _⟩

end Sys2Proof
